-- ==== Sys2Proof/Word.lean ====
section
/-! DEFINITION. The word types of the SVLID block and its four-lane vectors (00_scope.md R5, R6, R8). -/

namespace Sys2Proof

/-- A 32-bit port word or register lane: a raw pattern, bit 0 least significant (00_scope.md R5). -/
abbrev Word := BitVec 32

/-- A quantized 16-bit lane as a raw pattern (`bits16` of 00_scope.md R6). -/
abbrev Half := BitVec 16

/-- A byte, for the host's serialisation of port words (20_memory.md R35). -/
abbrev Byte := BitVec 8

/-- A vector of four lanes, lane 0 first (00_scope.md R8). -/
@[ext] structure Lanes (α : Type) where
  l0 : α
  l1 : α
  l2 : α
  l3 : α
deriving DecidableEq, Repr

/-- `V[k]` (00_scope.md R8). -/
def Lanes.get {α : Type} (v : Lanes α) (k : Fin 4) : α :=
  match k with
  | 0 => v.l0
  | 1 => v.l1
  | 2 => v.l2
  | 3 => v.l3

/-- The vector whose lane `k` is `f k`. -/
def Lanes.ofFn {α : Type} (f : Fin 4 → α) : Lanes α := ⟨f 0, f 1, f 2, f 3⟩

/-- The vector with the same value in every lane. -/
def Lanes.fill {α : Type} (x : α) : Lanes α := ⟨x, x, x, x⟩

end Sys2Proof
end

