-- ==== Sys2Proof/Machine/Flags.lean ====
section
/-! DEFINITION. The fields of `STAT` (10_state.md R19): where each stands, how it is read and how it is set. -/

namespace Sys2Proof.Machine

/-- The defined fields of `STAT` (R19). -/
inductive StatBit where
  | svv
  | ccv
  | outv
  | ill
  | uninit
deriving DecidableEq, Repr

/-- The field's bit number (R19). -/
def statPos (b : StatBit) : Nat :=
  match b with
  | .svv => 0
  | .ccv => 1
  | .outv => 2
  | .ill => 3
  | .uninit => 4

/-- The field is 1. -/
def statHas (w : Word) (b : StatBit) : Bool := w.getLsbD (statPos b)

/-- Set the field to 1; every other bit stays. No command clears a field (R19). -/
def statSet (w : Word) (b : StatBit) : Word := w ||| (1#32 <<< statPos b)

/-- The defined bits, 4:0; the bits above them are reserved and read as zero in every state (R25). -/
def statDefined : Word := 0x0000001F#32

end Sys2Proof.Machine
end

