-- ==== Sys2Proof/Config.lean ====
section
/-! DEFINITION. What one implementation fixes (the open parameters of 00_scope.md R4) and the values the spec leaves free.
Each is a constant without a body: no proof can learn what it is. -/

namespace Sys2Proof

/-- `SVB_ARITH`: how `qscale` scales (00_scope.md R4, 40_scale_vector.md R54). The spec's default stands first. -/
inductive SvbArith where
  | f32Recip
  | exactDiv
deriving DecidableEq, Repr, Inhabited

/-- `CC_PERM`: which origin lanes CellCoords takes (00_scope.md R4, 41_cell_coords.md R61). The spec's default stands first. -/
inductive CcPerm where
  | oxHtOzOz
  | ozHtOzOz
  | oxHtOzOw
deriving DecidableEq, Repr, Inhabited

/-- `HOST_BYTE_ORDER`: how a host serialises a port word (00_scope.md R4, 20_memory.md R35). No rule of the block depends on it:
it is an argument of the byte-stream functions of `Decode.lean` and of nothing else. -/
inductive ByteOrder where
  | little
  | big
deriving DecidableEq, Repr, Inhabited

/-- The value of `SVB_ARITH` of this implementation. Open: log entry 5. -/
opaque Config.svbArith : SvbArith

/-- The value of `CC_PERM` of this implementation. Open: log entry 6. -/
opaque Config.ccPerm : CcPerm

/-- The sign bit of the `n`-th `NAN_PAYLOAD` draw (60_exceptions.md R85). Free: log entry 4. -/
opaque Config.nanSign : Nat → Bool

/-- The fraction of the `n`-th `NAN_PAYLOAD` draw, less 1: the fraction field is one of 1 … 2^23 − 1, never 0
(60_exceptions.md R85). Free: log entry 4. -/
opaque Config.nanFraction : Nat → Fin 8388607

/-- Whether `RESET` comes before the command presented with it (70_reset_and_hazards.md R95). Free: log entry 7. -/
opaque Config.resetFirst : Nat → Bool

/-- A register lane's unspecified content after power is applied (60_exceptions.md R93). Free: log entry 8. -/
opaque Config.powerUpWord : Nat → Word

end Sys2Proof
end

