-- ==== Sys2Proof/Machine/Float.lean ====
section
/-! DEFINITION. IEEE 754 binary32 on 32-bit patterns (00_scope.md R7): the fields of a pattern, `round32`, `fmul32`, `fadd32`,
`cvt_i32_f32`, the division of `EXACT_DIV`, and the free NaN of 60_exceptions.md R85. Every finite value is a whole number of
2^-149 ("units"), so an exact value is carried as a sign and a fraction of units, and rounded once. What R7 leaves to IEEE 754 is log
entry 9. -/

namespace Sys2Proof.Machine

/-- The sign, bit 31 (R7). -/
def signBit (x : Word) : Bool := x.getLsbD 31

/-- The biased exponent, bits 30:23 (R7). -/
def expField (x : Word) : Nat := (x.extractLsb' 23 8).toNat

/-- The fraction, bits 22:0 (R7). -/
def fracField (x : Word) : Nat := (x.extractLsb' 0 23).toNat

/-- A NaN: exponent all ones and a nonzero fraction (R7, 60_exceptions.md R85). -/
def isNaN (x : Word) : Bool := expField x == 255 && fracField x != 0

/-- An infinity: exponent all ones and a zero fraction (R7). -/
def isInf (x : Word) : Bool := expField x == 255 && fracField x == 0

/-- A zero, of either sign. -/
def isZero (x : Word) : Bool := expField x == 0 && fracField x == 0

/-- A finite value: a zero, a subnormal or a normal. -/
def isFinite (x : Word) : Bool := expField x != 255

/-- The magnitude of a finite pattern in units of 2^-149: subnormals are kept (00_scope.md R4). -/
def magUnits (x : Word) : Nat :=
  if expField x = 0 then fracField x else (2 ^ 23 + fracField x) * 2 ^ (expField x - 1)

/-- The value of a finite pattern in units of 2^-149. -/
def units (x : Word) : Int := if signBit x then -(magUnits x : Int) else (magUnits x : Int)

/-- The pattern of a sign and the lower 31 bits. -/
def packSign (neg : Bool) (m : Nat) : Word := BitVec.ofNat 32 ((if neg then 2 ^ 31 else 0) + m)

/-- The lower 31 bits of an infinity. -/
def infBits : Nat := 0x7F800000

/-- `n / d` to the nearest whole number, ties to even. -/
def roundHalfEven (n d : Nat) : Nat :=
  if 2 * (n % d) > d ∨ (2 * (n % d) = d ∧ n / d % 2 = 1) then n / d + 1 else n / d

/-- How far above the unit the last place of a magnitude of `m` whole units lies: 0 while 24 bits hold it. -/
def ulpShift (m : Nat) : Nat := m.log2 - 23

/-- The lower 31 bits of `n / d` units rounded to binary32. With a last place of `2^s` units, a significand `q` below 2^24 has
the bits `2^23 * s + q`, and a carry out of it runs into the exponent; what reaches the infinity's bits is the infinity (R7:
"±infinity when |x| is at least the overflow threshold"). -/
def roundMag (n d : Nat) : Nat :=
  let s := ulpShift (n / d)
  min infBits (2 ^ 23 * s + roundHalfEven n (d * 2 ^ s))

/-- `round32` of `± n / d` units (00_scope.md R7); a zero result has the sign given. -/
def round32 (neg : Bool) (n d : Nat) : Word := packSign neg (roundMag n d)

/-- `fmul32` (R7). `nan` is the draw a NaN result takes (60_exceptions.md R85). -/
def fmul32 (nan a b : Word) : Word :=
  if isNaN a || isNaN b then nan
  else if isInf a || isInf b then
    if isZero a || isZero b then nan else packSign (signBit a ^^ signBit b) infBits
  else round32 (signBit a ^^ signBit b) (magUnits a * magUnits b) (2 ^ 149)

/-- The sign of an exact sum: of a zero sum, minus only when both terms are minus (R7: `(+0) + (−0) = +0`, to nearest). -/
def sumSign (a b : Word) : Bool :=
  if units a + units b = 0 then signBit a && signBit b else decide (units a + units b < 0)

/-- `fadd32` (R7). `nan` is the draw a NaN result takes. -/
def fadd32 (nan a b : Word) : Word :=
  if isNaN a || isNaN b then nan
  else if isInf a then if isInf b && (signBit a != signBit b) then nan else a
  else if isInf b then b
  else round32 (sumSign a b) (units a + units b).natAbs 1

/-- `cvt_i32_f32(n) = round32(n)` (R7). -/
def cvtI32F32 (n : Int) : Word := round32 (decide (n < 0)) (2 ^ 149 * n.natAbs) 1

/-- `QDIV`, the quantization divisor (00_scope.md R4). -/
def quantDivisor : Nat := 32767

/-- `round32(x / 32767)` (40_scale_vector.md R54, `EXACT_DIV`). -/
def fdivQuant (nan x : Word) : Word :=
  if isNaN x then nan
  else if isInf x then packSign (signBit x) infBits
  else round32 (signBit x) (magUnits x) quantDivisor

/-- A NaN pattern from a sign and a fraction less 1 (60_exceptions.md R85). -/
def nanPattern (neg : Bool) (frac : Fin 8388607) : Word := packSign neg (infBits + (frac.val + 1))

/-- The NaN of the `n`-th draw (`NAN_PAYLOAD`, 60_exceptions.md R85; log entry 4). -/
def drawnNaN (n : Nat) : Word := nanPattern (Config.nanSign n) (Config.nanFraction n)

end Sys2Proof.Machine
end

