-- ==== Sys2Proof/Machine/Operands.lean ====
section
/-! DEFINITION. The operand forms: signed values of patterns (00_scope.md R6), the transpose (42_position_decode.md R66), the
scaling primitive (40_scale_vector.md R54), the CellCoords lane choice (41_cell_coords.md R61). -/

namespace Sys2Proof.Machine

/-- `sext_32(v)` (00_scope.md R6): bit 15 copied into bits 31:16. -/
def sext32 (v : Half) : Word := v.signExtend 32

/-- `sint(w)` (00_scope.md R6). -/
def sint (w : Word) : Int := w.toInt

/-- Step 1 of the decode on one input vector: each lane sign-extended (42_position_decode.md R65). -/
def sextLanes (a : Lanes Half) : Lanes Int := Lanes.ofFn fun k => sint (sext32 (a.get k))

/-- Step 2: vertex `k` takes lane `k` of each input, and a zero pad (42_position_decode.md R66). -/
def transpose (w0 w1 w2 : Lanes Int) : Lanes (Lanes Int) :=
  Lanes.ofFn fun k => ⟨w0.get k, w1.get k, w2.get k, 0⟩

/-- `K`, the hardwired binary32 constant nearest 1/32767 (10_state.md R26). -/
def quantK : Word := 0x38000100#32

/-- `qscale(x)` under a value of `SVB_ARITH` (40_scale_vector.md R54). -/
def qscale (arith : SvbArith) (nan x : Word) : Word :=
  match arith with
  | .f32Recip => fmul32 nan x quantK
  | .exactDiv => fdivQuant nan x

/-- The ScaleVector `SVB` builds: lane 2 is lane 0's pattern, lane 3 is +0 (40_scale_vector.md R55). -/
def scaleVector (arith : SvbArith) (nan0 nan1 cellSize heightDelta : Word) : Lanes Word :=
  let s0 := qscale arith nan0 cellSize
  let s1 := qscale arith nan1 (cvtI32F32 (sint heightDelta))
  ⟨s0, s1, s0, 0#32⟩

/-- `cellcoords(o, m)` under a value of `CC_PERM` (41_cell_coords.md R61). -/
def cellCoords (perm : CcPerm) (o : Lanes Word) (m : Word) : Lanes Word :=
  match perm with
  | .oxHtOzOz => ⟨o.l0, m, o.l2, o.l2⟩
  | .ozHtOzOz => ⟨o.l2, m, o.l2, o.l2⟩
  | .oxHtOzOw => ⟨o.l0, m, o.l2, o.l3⟩

/-- Steps 3 and 4 on one lane: convert, multiply, then add with a rounding of its own (42_position_decode.md R67, R68, R69). -/
def decodeLane (nanMul nanAdd : Word) (t : Int) (s c : Word) : Word :=
  fadd32 nanAdd (fmul32 nanMul (cvtI32F32 t) s) c

/-- `vdecode` (42_position_decode.md R70). `nan i` is the draw of the `i`-th arithmetic operation, counting vertex by vertex, lane
by lane, the multiply before the add: 32 operations. -/
def vdecode (nan : Nat → Word) (a0 a1 a2 : Lanes Half) (s c : Lanes Word) : Lanes (Lanes Word) :=
  let t := transpose (sextLanes a0) (sextLanes a1) (sextLanes a2)
  Lanes.ofFn fun k => Lanes.ofFn fun j =>
    decodeLane (nan (8 * k.val + 2 * j.val)) (nan (8 * k.val + 2 * j.val + 1)) ((t.get k).get j) (s.get j) (c.get j)

end Sys2Proof.Machine
end

