-- ==== Sys2Proof/Syntax.lean ====
section
/-! DEFINITION. Commands as presented (`CMD` and six payload words) and as decoded: one constructor of `Instr` for each row of
spec/opcode_table.json (30_encoding.md R40, R44, R47). -/

namespace Sys2Proof

/-- The six payload words `D[0..5]` (30_encoding.md R40). -/
@[ext] structure Payload where
  d0 : Word
  d1 : Word
  d2 : Word
  d3 : Word
  d4 : Word
  d5 : Word
deriving DecidableEq, Repr

/-- `D[w]`. -/
def Payload.word (d : Payload) (w : Fin 6) : Word :=
  match w with
  | 0 => d.d0
  | 1 => d.d1
  | 2 => d.d2
  | 3 => d.d3
  | 4 => d.d4
  | 5 => d.d5

/-- A command as the host presents it: seven words sampled together (10_state.md R28, 30_encoding.md R51). -/
@[ext] structure Command where
  cmd : Word
  d : Payload
deriving DecidableEq, Repr

/-- A legal command with its operands (30_encoding.md R44, R47, R52). Integer operands are kept as raw patterns: their signed
value is taken in the command's meaning (40_scale_vector.md R55, 42_position_decode.md R65). `k` is `VSEL`. -/
inductive Instr where
  | nop
  | svb (cellSize heightDelta : Word)
  | wrsv (v : Lanes Word)
  | rdsv
  | ccb (origin : Lanes Word) (htMin : Word)
  | wrcc (v : Lanes Word)
  | rdcc
  | dec (k : Fin 4) (a0 a1 a2 : Lanes Half)
  | rdout (k : Fin 4)
  | rdstat
deriving DecidableEq, Repr

end Sys2Proof
end

