-- ==== Sys2Proof/WellFormed.lean ====
section
/-! DEFINITION. Which command words are legal, as 30_encoding.md R46 writes it: its three conditions, each by itself and together,
and the names of the ways a word or a byte string can fail. It is written apart from the decoder of `Decode.lean`, so that the two
can be compared. Every `Instr` is well formed by its type (a `VSEL` is one of 0..3, a lane has 16 bits). -/

namespace Sys2Proof

/-- Why a byte string or a command word holds no instruction (30_encoding.md R43, R45, R46; `truncated` is the byte stream's own). -/
inductive DecodeError where
  /-- Fewer than the 28 bytes of a command. -/
  | truncated
  /-- A 1 in `CMD[31:6]` (R43). -/
  | reservedBits
  /-- `OPC` is 0xA to 0xF (R45). -/
  | reservedOpcode
  /-- A nonzero `VSEL` on a command that does not use it (R42). -/
  | vselNotUsed
deriving DecidableEq, Repr

/-- `CMD[31:6] == 0` (R43, R46). -/
def reservedZero (cmd : Word) : Bool := cmd.toNat / 64 == 0

/-- `CMD[3:0] <= 0x9` (R45, R46). -/
def opcodeKnown (cmd : Word) : Bool := decide (cmd.toNat % 16 ≤ 9)

/-- `CMD[5:4] == 0 or CMD[3:0] == 0x7 or CMD[3:0] == 0x8` (R42, R46). -/
def vselAllowed (cmd : Word) : Bool :=
  cmd.toNat / 16 % 4 == 0 || cmd.toNat % 16 == 7 || cmd.toNat % 16 == 8

/-- `legal(CMD)` of 30_encoding.md R46. -/
def legal (cmd : Word) : Bool := reservedZero cmd && opcodeKnown cmd && vselAllowed cmd

/-- A command is well formed when its command word is legal, whatever its payload (R46). -/
def Command.wellFormed (c : Command) : Bool := legal c.cmd

/-- How many payload words, counted from `D[0]`, a command with this `OPC` reads (the table of 30_encoding.md R47). -/
def payloadRead (opc : Nat) : Nat :=
  match opc with
  | 1 => 2
  | 2 => 4
  | 4 => 5
  | 5 => 4
  | 7 => 6
  | _ => 0

end Sys2Proof
end

