-- ==== Sys2Proof/Decode.lean ====
section
/-! DEFINITION. The decoder of command words, total and by the rows of the opcode map (30_encoding.md R40 to R48), the encoder, the
byte stream a host may use (20_memory.md R35), and the host's numbering of spec/opcode_table.json. -/

namespace Sys2Proof

/-- `OPC = CMD[3:0]` (R41). -/
def opcField (cmd : Word) : BitVec 4 := cmd.extractLsb' 0 4

/-- `VSEL = CMD[5:4]` (R42). -/
def vselField (cmd : Word) : Fin 4 := Fin.ofNat 4 (cmd.extractLsb' 4 2).toNat

/-- `RSVD = CMD[31:6]` (R43). -/
def rsvdField (cmd : Word) : BitVec 26 := cmd.extractLsb' 6 26

/-- The four 16-bit lanes of one input vector from its two payload words, the lower-numbered lane in bits 15:0
(20_memory.md R33, 30_encoding.md R48). -/
def lanesOfPair (lo hi : Word) : Lanes Half :=
  ⟨lo.extractLsb' 0 16, lo.extractLsb' 16 16, hi.extractLsb' 0 16, hi.extractLsb' 16 16⟩

/-- `{hi, lo}`: two lanes in one payload word (00_scope.md R5, 30_encoding.md R47). -/
def packPair (lo hi : Half) : Word := hi.setWidth 32 <<< 16 ||| lo.setWidth 32

/-- One row of the opcode map: its name, its pattern and mask, and the operands it reads. -/
structure OpcodeRow where
  mnemonic : String
  pattern : Word
  mask : Word
  read : Command → Instr

/-- The word is one of the row's. -/
def OpcodeRow.hits (r : OpcodeRow) (cmd : Word) : Bool := cmd &&& r.mask == r.pattern

/-- The opcode map with its match and mask columns (30_encoding.md R44) and its payload columns (R47). -/
def opcodeRows : List OpcodeRow :=
  [ ⟨"NOP", 0x00000000#32, 0xFFFFFFFF#32, fun _ => .nop⟩,
    ⟨"SVB", 0x00000001#32, 0xFFFFFFFF#32, fun c => .svb c.d.d0 c.d.d1⟩,
    ⟨"WRSV", 0x00000002#32, 0xFFFFFFFF#32, fun c => .wrsv ⟨c.d.d0, c.d.d1, c.d.d2, c.d.d3⟩⟩,
    ⟨"RDSV", 0x00000003#32, 0xFFFFFFFF#32, fun _ => .rdsv⟩,
    ⟨"CCB", 0x00000004#32, 0xFFFFFFFF#32, fun c => .ccb ⟨c.d.d0, c.d.d1, c.d.d2, c.d.d3⟩ c.d.d4⟩,
    ⟨"WRCC", 0x00000005#32, 0xFFFFFFFF#32, fun c => .wrcc ⟨c.d.d0, c.d.d1, c.d.d2, c.d.d3⟩⟩,
    ⟨"RDCC", 0x00000006#32, 0xFFFFFFFF#32, fun _ => .rdcc⟩,
    ⟨"DEC", 0x00000007#32, 0xFFFFFFCF#32, fun c =>
      .dec (vselField c.cmd) (lanesOfPair c.d.d0 c.d.d1) (lanesOfPair c.d.d2 c.d.d3) (lanesOfPair c.d.d4 c.d.d5)⟩,
    ⟨"RDOUT", 0x00000008#32, 0xFFFFFFCF#32, fun c => .rdout (vselField c.cmd)⟩,
    ⟨"RDSTAT", 0x00000009#32, 0xFFFFFFFF#32, fun _ => .rdstat⟩ ]

/-- The condition of R46 that an illegal word fails, the first in the rule's order. -/
def whyIllegal (cmd : Word) : DecodeError :=
  if rsvdField cmd ≠ 0 then .reservedBits
  else if 9 < (opcField cmd).toNat then .reservedOpcode
  else .vselNotUsed

/-- The decoder: total on every command, refusing by name (30_encoding.md R46). It reads the payload of a legal word only. -/
def decode (c : Command) : Except DecodeError Instr :=
  match opcodeRows.find? (fun r => r.hits c.cmd) with
  | some r => .ok (r.read c)
  | none => .error (whyIllegal c.cmd)

/-- A command word with the given `OPC` and `VSEL` and a zero `RSVD` (R40). -/
def commandWord (opc : BitVec 4) (k : Fin 4) : Word := BitVec.ofNat 32 (opc.toNat + 16 * k.val)

/-- The payload with every word 0, which the test vectors drive where a command ignores it (R49). -/
def Payload.zero : Payload := ⟨0#32, 0#32, 0#32, 0#32, 0#32, 0#32⟩

/-- The encoder: the seven words of an instruction, ignored words 0 (30_encoding.md R44, R47, R49). -/
def encode (i : Instr) : Command :=
  match i with
  | .nop => ⟨commandWord 0x0#4 0, Payload.zero⟩
  | .svb c hd => ⟨commandWord 0x1#4 0, ⟨c, hd, 0#32, 0#32, 0#32, 0#32⟩⟩
  | .wrsv v => ⟨commandWord 0x2#4 0, ⟨v.l0, v.l1, v.l2, v.l3, 0#32, 0#32⟩⟩
  | .rdsv => ⟨commandWord 0x3#4 0, Payload.zero⟩
  | .ccb o m => ⟨commandWord 0x4#4 0, ⟨o.l0, o.l1, o.l2, o.l3, m, 0#32⟩⟩
  | .wrcc v => ⟨commandWord 0x5#4 0, ⟨v.l0, v.l1, v.l2, v.l3, 0#32, 0#32⟩⟩
  | .rdcc => ⟨commandWord 0x6#4 0, Payload.zero⟩
  | .dec k a b c => ⟨commandWord 0x7#4 k,
      ⟨packPair a.l0 a.l1, packPair a.l2 a.l3, packPair b.l0 b.l1, packPair b.l2 b.l3,
       packPair c.l0 c.l1, packPair c.l2 c.l3⟩⟩
  | .rdout k => ⟨commandWord 0x8#4 k, Payload.zero⟩
  | .rdstat => ⟨commandWord 0x9#4 0, Payload.zero⟩

/-- Byte `i` of a word, byte 0 the least significant. -/
def wordByte (w : Word) (i : Nat) : Byte := w.extractLsb' (8 * i) 8

/-- The four bytes of a word in the host's order (20_memory.md R35). -/
def wordToBytes (o : ByteOrder) (w : Word) : List Byte :=
  match o with
  | .little => [wordByte w 0, wordByte w 1, wordByte w 2, wordByte w 3]
  | .big => [wordByte w 3, wordByte w 2, wordByte w 1, wordByte w 0]

/-- The word of four bytes in the host's order. -/
def wordOfBytes (o : ByteOrder) (b0 b1 b2 b3 : Byte) : Word :=
  match o with
  | .little => b3.setWidth 32 <<< 24 ||| b2.setWidth 32 <<< 16 ||| b1.setWidth 32 <<< 8 ||| b0.setWidth 32
  | .big => b0.setWidth 32 <<< 24 ||| b1.setWidth 32 <<< 16 ||| b2.setWidth 32 <<< 8 ||| b3.setWidth 32

/-- Take one word from the front of a byte string. -/
def takeWord (o : ByteOrder) (bs : List Byte) : Option (Word × List Byte) :=
  match bs with
  | b0 :: b1 :: b2 :: b3 :: rest => some (wordOfBytes o b0 b1 b2 b3, rest)
  | _ => none

/-- A command's seven words as bytes, `CMD` first and then `D[0]` to `D[5]` (the order of words is log entry 11). -/
def commandToBytes (o : ByteOrder) (c : Command) : List Byte :=
  wordToBytes o c.cmd ++ wordToBytes o c.d.d0 ++ wordToBytes o c.d.d1 ++ wordToBytes o c.d.d2 ++ wordToBytes o c.d.d3 ++
    wordToBytes o c.d.d4 ++ wordToBytes o c.d.d5

/-- Take one command from the front of a byte string. -/
def takeCommand (o : ByteOrder) (bs : List Byte) : Option (Command × List Byte) :=
  match takeWord o bs with
  | none => none
  | some (cmd, r0) =>
  match takeWord o r0 with
  | none => none
  | some (d0, r1) =>
  match takeWord o r1 with
  | none => none
  | some (d1, r2) =>
  match takeWord o r2 with
  | none => none
  | some (d2, r3) =>
  match takeWord o r3 with
  | none => none
  | some (d3, r4) =>
  match takeWord o r4 with
  | none => none
  | some (d4, r5) =>
  match takeWord o r5 with
  | none => none
  | some (d5, r6) => some (⟨cmd, ⟨d0, d1, d2, d3, d4, d5⟩⟩, r6)

/-- The decoder on a host's byte string: the instruction and the rest, total and refusing by name (20_memory.md R35). -/
def decodeBytes (o : ByteOrder) (bs : List Byte) : Except DecodeError (Instr × List Byte) :=
  match takeCommand o bs with
  | none => .error .truncated
  | some (c, rest) =>
    match decode c with
    | .ok i => .ok (i, rest)
    | .error e => .error e

/-- The command whose bits are `w % 2^nbits`, numbered as spec/opcode_table.json numbers them: `CMD` is bits 31:0 and `D[i]` the
32 bits above it, so bits above `nbits` are payload bits of zero. -/
def tableCommand (nbits w : Nat) : Command :=
  let n := w % 2 ^ nbits
  let word (i : Nat) : Word := BitVec.ofNat 32 (n / 2 ^ (32 * i))
  ⟨word 0, ⟨word 1, word 2, word 3, word 4, word 5, word 6⟩⟩

/-- What the decoder reads from the table's bits. -/
def decodeTableWord (nbits w : Nat) : Option Instr :=
  match decode (tableCommand nbits w) with
  | .ok i => some i
  | .error _ => none

end Sys2Proof
end

