-- ==== Sys2Proof/Machine/State.lean ====
section
/-! DEFINITION. The state of the block (10_state.md R15), what the host presents (10_state.md R28), what a step drives
(10_state.md R29), the reasons a step can stop, and the state after reset (10_state.md R30). -/

namespace Sys2Proof.Machine

/-- Whether `RESET` has been applied since power (60_exceptions.md R93). The model's own field: log entry 8. -/
inductive Phase where
  | unreset
  | operational
deriving DecidableEq, Repr

/-- The response codes the block drives (30_encoding.md R50). Code 3 is reserved and never driven, so it has no constructor. -/
inductive RespCode where
  | ok
  | ill
  | uninit
deriving DecidableEq, Repr

/-- One response: `RC` and `R[0..3]` (30_encoding.md R50). -/
@[ext] structure Response where
  rc : RespCode
  r : Lanes Word
deriving DecidableEq, Repr

/-- What the last step drove on the output ports (10_state.md R29): nothing, a response that is lost to the host because `RESET`
came with its command (70_reset_and_hazards.md R95), or a response. Log entry 3. -/
inductive PortOut where
  | silent
  | lost
  | answered (r : Response)
deriving DecidableEq, Repr

/-- One thing the host does to the input ports (10_state.md R28). -/
inductive HostEvent where
  /-- Power is applied: every register becomes unspecified (60_exceptions.md R93). -/
  | powerOn
  /-- `RESET` (70_reset_and_hazards.md R94). -/
  | reset
  /-- A command is presented (00_scope.md R10). -/
  | command (c : Command)
  /-- `RESET` is asserted while a command is presented (70_reset_and_hazards.md R95). -/
  | commandWithReset (c : Command)
deriving DecidableEq, Repr

/-- The state. `sv`, `cc`, `out`, `stat` are the spec's registers (10_state.md R15 to R19); the other fields are the model's own:
`phase` (log entry 8), `inbox`, what the host is going to present, oldest first (log entry 2), `port`, what the last step drove
(log entry 3), and `draws`, how many free values have been drawn (log entry 4). -/
structure State where
  sv : Lanes Word
  cc : Lanes Word
  out : Lanes (Lanes Word)
  stat : Word
  phase : Phase
  inbox : List HostEvent
  port : PortOut
  draws : Nat
deriving DecidableEq, Repr

/-- No step faults: the block takes no trap, and each of its two errors is a response after which it goes on (60_exceptions.md
R78, R87). So the type is empty. Log entry 10. -/
inductive Fault where
deriving DecidableEq, Repr

/-- The ways a step can have no meaning. -/
inductive Refusal where
  /-- Raised by an arm of `exec` that has no meaning yet; none is left. Safe. -/
  | notModelled (mnemonic : String)
  /-- Raised by a step that is presented a command before the first `RESET` (60_exceptions.md R93; 93_implementation_defined.md
  U11 says "refuse"). Safe: nothing can be proved of an unreset block's commands. Log entry 8. -/
  | beforeReset
deriving DecidableEq, Repr

/-- The state after `RESET` (10_state.md R30, 70_reset_and_hazards.md R94): `STAT` is 0. The spec gives `SV`, `CC` and `OUT` no
value; the zeros are log entry 1. The model's own fields are those of entries 2, 3, 4 and 8. -/
def State.reset : State where
  sv := Lanes.fill 0#32
  cc := Lanes.fill 0#32
  out := Lanes.fill (Lanes.fill 0#32)
  stat := 0#32
  phase := .operational
  inbox := []
  port := .silent
  draws := 0

end Sys2Proof.Machine
end

