-- ==== Sys2Proof/Machine/Ops.lean ====
section
/-! DEFINITION. The named operations on the state: writing a register with its valid bit (10_state.md R20 to R22), responding and
failing (00_scope.md R9, 60_exceptions.md R81), free draws, reset and power-up. The block takes no exception and returns from none
(60_exceptions.md R78, R87): `fail` is the whole of an error's effect. -/

namespace Sys2Proof.Machine

/-- Write all four lanes of `SV` and set its valid bit (10_state.md R16, R20). -/
def writeSv (v : Lanes Word) (s : State) : State := { s with sv := v, stat := statSet s.stat .svv }

/-- Write all four lanes of `CC` and set its valid bit (10_state.md R17, R21). -/
def writeCc (v : Lanes Word) (s : State) : State := { s with cc := v, stat := statSet s.stat .ccv }

/-- Write all sixteen lanes of `OUT` and set its valid bit (10_state.md R18, R22). -/
def writeOut (v : Lanes (Lanes Word)) (s : State) : State := { s with out := v, stat := statSet s.stat .outv }

/-- Set a sticky error bit (10_state.md R23, R24). -/
def setStat (b : StatBit) (s : State) : State := { s with stat := statSet s.stat b }

/-- Move past `n` free draws. -/
def advanceDraws (n : Nat) (s : State) : State := { s with draws := s.draws + n }

/-- The NaN of the `i`-th draw from here (60_exceptions.md R85). -/
def nanDraw (s : State) (i : Nat) : Word := drawnNaN (s.draws + i)

/-- `respond(rc, r0, r1, r2, r3)` (00_scope.md R9). -/
def respond (rc : RespCode) (r : Lanes Word) (s : State) : State := { s with port := .answered ⟨rc, r⟩ }

/-- Respond `OK` with four zero words (30_encoding.md R50). -/
def respondOk (s : State) : State := respond .ok (Lanes.fill 0#32) s

/-- `fail(code)` (60_exceptions.md R81). -/
def fail (code : RespCode) (s : State) : State :=
  match code with
  | .ill => respond .ill (Lanes.fill 0#32) (setStat .ill s)
  | .uninit => respond .uninit (Lanes.fill 0#32) (setStat .uninit s)
  | .ok => respond .ok (Lanes.fill 0#32) s

/-- The two bits of `RC` (30_encoding.md R50). -/
def respBits (rc : RespCode) : BitVec 2 :=
  match rc with
  | .ok => 0#2
  | .ill => 1#2
  | .uninit => 2#2

/-- A step with nothing on the input ports: the block holds all its state and drives nothing (60_exceptions.md R93). -/
def idle (s : State) : State := { s with port := .silent }

/-- `RESET` (70_reset_and_hazards.md R94): the reset state, and no response. What the host is going to present is not the block's,
and draws once used stay used (log entry 4). -/
def applyReset (s : State) : State := { State.reset with inbox := s.inbox, draws := s.draws }

/-- The response of the step is lost to the host (70_reset_and_hazards.md R95). -/
def loseResponse (s : State) : State := { s with port := .lost }

/-- Four free words. -/
def powerUpLanes (n : Nat) : Lanes Word := Lanes.ofFn fun j => Config.powerUpWord (n + j.val)

/-- Power is applied: every register, `STAT` included, is unspecified until `RESET` (60_exceptions.md R93); `STAT[31:5]` read as
zero even so (10_state.md R25). Log entry 8. -/
def powerUp (s : State) : State :=
  { s with
    sv := powerUpLanes s.draws
    cc := powerUpLanes (s.draws + 4)
    out := Lanes.ofFn fun k => powerUpLanes (s.draws + 8 + 4 * k.val)
    stat := Config.powerUpWord (s.draws + 24) &&& statDefined
    phase := .unreset
    port := .silent
    draws := s.draws + 25 }

end Sys2Proof.Machine
end

