-- ==== Sys2Proof/Machine/CellCoords.lean ====
section
/-! DEFINITION. The CellCoords commands CCB, WRCC, RDCC (41_cell_coords.md R61 to R64). -/

namespace Sys2Proof.Machine

/-- `CCB` (R62): `htMin` is converted to binary32, the origin lanes are copied. -/
def execCcb (origin : Lanes Word) (htMin : Word) (s : State) : Host.Outcome State Fault Refusal :=
  .next (respondOk (writeCc (cellCoords Config.ccPerm origin (cvtI32F32 (sint htMin))) s))

/-- `WRCC` (R63): the patterns are copied unchanged. -/
def execWrcc (v : Lanes Word) (s : State) : Host.Outcome State Fault Refusal :=
  .next (respondOk (writeCc v s))

/-- `RDCC` (R64). -/
def execRdcc (s : State) : Host.Outcome State Fault Refusal :=
  .next (if statHas s.stat .ccv then respond .ok s.cc s else fail .uninit s)

end Sys2Proof.Machine
end

