-- ==== Sys2Proof/Machine/Control.lean ====
section
/-! DEFINITION. The control commands NOP and RDSTAT (43_control.md R76, R77). -/

namespace Sys2Proof.Machine

/-- `NOP` (R76). -/
def execNop (s : State) : Host.Outcome State Fault Refusal := .next (respondOk s)

/-- `RDSTAT` (R77): reading clears nothing. -/
def execRdstat (s : State) : Host.Outcome State Fault Refusal :=
  .next (respond .ok ⟨s.stat, 0#32, 0#32, 0#32⟩ s)

end Sys2Proof.Machine
end

