-- ==== Sys2Proof/Machine/PositionDecode.lean ====
section
/-! DEFINITION. The PositionDecoder commands DEC and RDOUT (42_position_decode.md R65 to R75). -/

namespace Sys2Proof.Machine

/-- A `DEC` whose operands are written: all of `OUT`, then the selected vertex as the response (R71). Its 32 arithmetic operations
take the next 32 draws. -/
def decodeAndRespond (k : Fin 4) (a0 a1 a2 : Lanes Half) (s : State) : State :=
  let p := vdecode (nanDraw s) a0 a1 a2 s.sv s.cc
  respond .ok (p.get k) (advanceDraws 32 (writeOut p s))

/-- `DEC` (R71). -/
def execDec (k : Fin 4) (a0 a1 a2 : Lanes Half) (s : State) : Host.Outcome State Fault Refusal :=
  .next (if statHas s.stat .svv && statHas s.stat .ccv then decodeAndRespond k a0 a1 a2 s else fail .uninit s)

/-- `RDOUT` (R72). -/
def execRdout (k : Fin 4) (s : State) : Host.Outcome State Fault Refusal :=
  .next (if statHas s.stat .outv then respond .ok (s.out.get k) s else fail .uninit s)

end Sys2Proof.Machine
end

