-- ==== Sys2Proof/Machine/ScaleVector.lean ====
section
/-! DEFINITION. The ScaleVectorBuilder commands SVB, WRSV, RDSV (40_scale_vector.md R54 to R60). -/

namespace Sys2Proof.Machine

/-- `SVB` (R55): no operand is checked (R56). Its two scalings take the next two draws. -/
def execSvb (cellSize heightDelta : Word) (s : State) : Host.Outcome State Fault Refusal :=
  .next (respondOk (advanceDraws 2
    (writeSv (scaleVector Config.svbArith (nanDraw s 0) (nanDraw s 1) cellSize heightDelta) s)))

/-- `WRSV` (R58): the patterns are copied unchanged. -/
def execWrsv (v : Lanes Word) (s : State) : Host.Outcome State Fault Refusal :=
  .next (respondOk (writeSv v s))

/-- `RDSV` (R59). -/
def execRdsv (s : State) : Host.Outcome State Fault Refusal :=
  .next (if statHas s.stat .svv then respond .ok s.sv s else fail .uninit s)

end Sys2Proof.Machine
end

