-- ==== Sys2Proof/Machine/Dispatch.lean ====
section
/-! DEFINITION. One arm for each constructor of `Instr`, each a direct call of its meaning. -/

namespace Sys2Proof.Machine

def exec (i : Instr) (s : State) : Host.Outcome State Fault Refusal :=
  match i with
  | .nop => Sys2Proof.Machine.execNop s
  | .svb cellSize heightDelta => Sys2Proof.Machine.execSvb cellSize heightDelta s
  | .wrsv v => Sys2Proof.Machine.execWrsv v s
  | .rdsv => Sys2Proof.Machine.execRdsv s
  | .ccb origin htMin => Sys2Proof.Machine.execCcb origin htMin s
  | .wrcc v => Sys2Proof.Machine.execWrcc v s
  | .rdcc => Sys2Proof.Machine.execRdcc s
  | .dec k a0 a1 a2 => Sys2Proof.Machine.execDec k a0 a1 a2 s
  | .rdout k => Sys2Proof.Machine.execRdout k s
  | .rdstat => Sys2Proof.Machine.execRdstat s

end Sys2Proof.Machine
end

