-- ==== Sys2Proof/Machine/Present.lean ====
section
/-! DEFINITION. What the block does with one thing the host presents: a command (00_scope.md R10), `RESET` (70_reset_and_hazards.md
R94), both at once (R95), power (60_exceptions.md R93). -/

namespace Sys2Proof.Machine

/-- A command on an operational block: an illegal one fails with `ILL` before anything else (60_exceptions.md R79, R82), a legal
one is executed. Total, and one response each time (00_scope.md R10). -/
def runCommand (c : Command) (s : State) : Host.Outcome State Fault Refusal :=
  match decode c with
  | .ok i => exec i s
  | .error _ => .next (fail .ill s)

/-- A command presented by itself. Before the first `RESET` it has no meaning (60_exceptions.md R93; log entry 8). -/
def presentCommand (c : Command) (s : State) : Host.Outcome State Fault Refusal :=
  match s.phase with
  | .unreset => .refused .beforeReset
  | .operational => runCommand c s

/-- Apply a function to the state of a next outcome. -/
def mapNext (f : State → State) (o : Host.Outcome State Fault Refusal) : Host.Outcome State Fault Refusal :=
  match o with
  | .next t => .next (f t)
  | .fault r => .fault r
  | .refused r => .refused r

/-- `RESET` together with a command: either order, the response lost (70_reset_and_hazards.md R95; log entry 7). -/
def presentWithReset (c : Command) (s : State) : Host.Outcome State Fault Refusal :=
  let s1 := advanceDraws 1 s
  match Config.resetFirst s.draws with
  | true => mapNext loseResponse (runCommand c (applyReset s1))
  | false => mapNext (fun t => loseResponse (applyReset t)) (runCommand c s1)

/-- What one host event does. -/
def handleEvent (e : HostEvent) (s : State) : Host.Outcome State Fault Refusal :=
  match e with
  | .powerOn => .next (powerUp s)
  | .reset => .next (applyReset s)
  | .command c => presentCommand c s
  | .commandWithReset c => presentWithReset c s

/-- The rest of what the host is going to present. -/
def takeEvent (rest : List HostEvent) (s : State) : State := { s with inbox := rest }

end Sys2Proof.Machine
end

