-- ==== Sys2Proof/Machine/Step.lean ====
section
/-! DEFINITION. One step: the next thing the host presents, or an idle step (00_scope.md R10, 20_memory.md R37, 60_exceptions.md
R93). -/

namespace Sys2Proof.Machine

/-- One step of the block. -/
def step (s : State) : Host.Outcome State Fault Refusal :=
  match s.inbox with
  | [] => .next (idle s)
  | e :: rest => handleEvent e (takeEvent rest s)

/-- The instruction of spec/opcode_table.json whose bits are `w`, presented next. A command comes from outside the block (log
entry 2), and a block that has not been reset takes none, so the block is made operational. -/
def State.withFetchWord (s : State) (nbits w : Nat) : State :=
  { s with phase := .operational, inbox := .command (tableCommand nbits w) :: s.inbox }

end Sys2Proof.Machine
end

