-- ==== Sys2Proof/Machine/Assembler.lean ====
section
/-! DEFINITION. The assembler of 30_encoding.md R53 on parsed lines: literals, range checks, the default vertex select and the
pseudo-instruction LDCELL. `AsmText.lean` reads a line's characters. -/

namespace Sys2Proof.Machine

/-- A floating-point operand (R53): a decimal literal, `± digits × 10^exp10`, or an exact pattern `f32:0xHHHHHHHH`. -/
inductive FloatLit where
  | decimal (neg : Bool) (digits : Nat) (exp10 : Int)
  | bits (w : Word)
deriving DecidableEq, Repr

/-- A 16-bit operand (R53): a decimal integer, or a pattern `0xHHHH`. -/
inductive HalfLit where
  | int (n : Int)
  | bits (h : Half)
deriving DecidableEq, Repr

/-- One line (R53). A missing `.v<k>` is `none`. -/
inductive AsmLine where
  | nop
  | svb (cellSize : FloatLit) (heightDelta : Int)
  | wrsv (v : Lanes FloatLit)
  | rdsv
  | ccb (origin : Lanes FloatLit) (htMin : Int)
  | wrcc (v : Lanes FloatLit)
  | rdcc
  | dec (v : Option Nat) (a0 a1 a2 : Lanes HalfLit)
  | rdout (v : Option Nat)
  | rdstat
  | ldcell (cellSize : FloatLit) (heightDelta : Int) (origin : Lanes FloatLit) (htMin : Int)
deriving DecidableEq, Repr

/-- Why a line is refused (R53: "An assembler refuses an out-of-range literal; it does not wrap it"); `malformed` is text that is no
line of R53's forms. -/
inductive AsmError where
  | malformed
  | int32Range
  | int16Range
  | vertexRange
deriving DecidableEq, Repr

/-- A floating-point operand's pattern: a decimal literal stands for its `round32` value (R53). -/
def floatLit (l : FloatLit) : Word :=
  match l with
  | .bits w => w
  | .decimal neg digits (.ofNat e) => round32 neg (2 ^ 149 * (digits * 10 ^ e)) 1
  | .decimal neg digits (.negSucc e) => round32 neg (2 ^ 149 * digits) (10 ^ (e + 1))

/-- The patterns of four floating-point operands. -/
def floatLits (v : Lanes FloatLit) : Lanes Word := ⟨floatLit v.l0, floatLit v.l1, floatLit v.l2, floatLit v.l3⟩

/-- An `<i32>` operand in −2^31 .. 2^31−1, or a refusal (R53). -/
def int32Lit (n : Int) : Except AsmError Word :=
  if -2147483648 ≤ n ∧ n ≤ 2147483647 then .ok (BitVec.ofInt 32 n) else .error .int32Range

/-- An `<i16>` operand in −32768 .. 32767 or a pattern, or a refusal (R53). -/
def int16Lit (l : HalfLit) : Except AsmError Half :=
  match l with
  | .bits h => .ok h
  | .int n => if -32768 ≤ n ∧ n ≤ 32767 then .ok (BitVec.ofInt 16 n) else .error .int16Range

/-- One brace group of `DEC`, lanes 0..3 in order (R53). -/
def int16Lits (v : Lanes HalfLit) : Except AsmError (Lanes Half) :=
  match int16Lit v.l0, int16Lit v.l1, int16Lit v.l2, int16Lit v.l3 with
  | .ok a, .ok b, .ok c, .ok d => .ok ⟨a, b, c, d⟩
  | _, _, _, _ => .error .int16Range

/-- `.v<k>` with `k` in 0..3; missing means `.v0` (R53). -/
def vertexLit (v : Option Nat) : Except AsmError (Fin 4) :=
  match v with
  | none => .ok 0
  | some k => if h : k < 4 then .ok ⟨k, h⟩ else .error .vertexRange

/-- `SVB`'s instruction. -/
def asmSvb (c : FloatLit) (hd : Int) : Except AsmError Instr :=
  match int32Lit hd with
  | .ok w => .ok (.svb (floatLit c) w)
  | .error e => .error e

/-- `CCB`'s instruction. -/
def asmCcb (o : Lanes FloatLit) (m : Int) : Except AsmError Instr :=
  match int32Lit m with
  | .ok w => .ok (.ccb (floatLits o) w)
  | .error e => .error e

/-- `DEC`'s instruction. -/
def asmDec (v : Option Nat) (a0 a1 a2 : Lanes HalfLit) : Except AsmError Instr :=
  match vertexLit v with
  | .error e => .error e
  | .ok k =>
    match int16Lits a0, int16Lits a1, int16Lits a2 with
    | .ok a, .ok b, .ok c => .ok (.dec k a b c)
    | _, _, _ => .error .int16Range

/-- One instruction from a line that is one. -/
def single (i : Except AsmError Instr) : Except AsmError (List Instr) :=
  match i with
  | .ok i => .ok [i]
  | .error e => .error e

/-- The instructions of a line; LDCELL is `SVB` and then `CCB` (R53). -/
def assembleLine (l : AsmLine) : Except AsmError (List Instr) :=
  match l with
  | .nop => .ok [.nop]
  | .svb c hd => single (asmSvb c hd)
  | .wrsv v => .ok [.wrsv (floatLits v)]
  | .rdsv => .ok [.rdsv]
  | .ccb o m => single (asmCcb o m)
  | .wrcc v => .ok [.wrcc (floatLits v)]
  | .rdcc => .ok [.rdcc]
  | .dec v a0 a1 a2 => single (asmDec v a0 a1 a2)
  | .rdout v =>
    match vertexLit v with
    | .ok k => .ok [.rdout k]
    | .error e => .error e
  | .rdstat => .ok [.rdstat]
  | .ldcell c hd o m =>
    match asmSvb c hd, asmCcb o m with
    | .ok i, .ok j => .ok [i, j]
    | .error e, _ => .error e
    | _, .error e => .error e

/-- The commands of a line (30_encoding.md R44, R47). -/
def assemble (l : AsmLine) : Except AsmError (List Command) :=
  match assembleLine l with
  | .ok is => .ok (is.map encode)
  | .error e => .error e

end Sys2Proof.Machine
end

