-- ==== Sys2Proof/Machine/AsmText.lean ====
section
/-! DEFINITION. The written form of a command (30_encoding.md R53): the characters of one line, read into an `AsmLine`. What R53 leaves
to the writer (blanks, signs, letter case of hexadecimal digits, exponents) is log entry 12. -/

namespace Sys2Proof.Machine

/-- A blank between operands. -/
def isBlank (c : Char) : Bool := c == ' ' || c == '\t'

/-- Without the blanks at both ends. -/
def trimBlanks (cs : List Char) : List Char := ((cs.dropWhile isBlank).reverse.dropWhile isBlank).reverse

/-- The fields between the occurrences of a separator. -/
def splitAtChar (sep : Char) (cs : List Char) : List (List Char) :=
  match cs with
  | [] => [[]]
  | c :: rest =>
    match splitAtChar sep rest with
    | [] => [[c]]
    | f :: fs => if c == sep then [] :: f :: fs else (c :: f) :: fs

/-- A decimal digit's value. -/
def decDigit (c : Char) : Option Nat := if '0' ≤ c ∧ c ≤ '9' then some (c.toNat - 48) else none

/-- A hexadecimal digit's value, in either case. -/
def hexDigit (c : Char) : Option Nat :=
  if '0' ≤ c ∧ c ≤ '9' then some (c.toNat - 48)
  else if 'A' ≤ c ∧ c ≤ 'F' then some (c.toNat - 55)
  else if 'a' ≤ c ∧ c ≤ 'f' then some (c.toNat - 87)
  else none

/-- The digits of a numeral after the value `acc` of those before them. -/
def readDigits (base : Nat) (digit : Char → Option Nat) (acc : Nat) (cs : List Char) : Option Nat :=
  match cs with
  | [] => some acc
  | c :: rest =>
    match digit c with
    | some d => readDigits base digit (base * acc + d) rest
    | none => none

/-- A decimal numeral of at least one digit. -/
def readNat (cs : List Char) : Option Nat :=
  match cs with
  | [] => none
  | _ :: _ => readDigits 10 decDigit 0 cs

/-- A sign, and the characters after it. -/
def readSign (cs : List Char) : Bool × List Char :=
  match cs with
  | '-' :: rest => (true, rest)
  | '+' :: rest => (false, rest)
  | _ => (false, cs)

/-- A decimal integer. -/
def readInt (cs : List Char) : Option Int :=
  let (neg, rest) := readSign cs
  (readNat rest).map fun n => if neg then -(n : Int) else (n : Int)

/-- Exactly `n` hexadecimal digits. -/
def readHex (n : Nat) (cs : List Char) : Option Nat := if cs.length = n then readDigits 16 hexDigit 0 cs else none

/-- A number's digits, with a fraction or without: the digits as one numeral, and how many stand after the point. -/
def readMantissa (cs : List Char) : Option (Nat × Nat) :=
  match splitAtChar '.' cs with
  | [whole] => (readNat whole).map fun n => (n, 0)
  | [whole, frac] =>
    match readNat whole, readNat frac with
    | some _, some _ => (readNat (whole ++ frac)).map fun n => (n, frac.length)
    | _, _ => none
  | _ => none

/-- A decimal floating-point literal, with a power of ten or without. -/
def readDecimal (cs : List Char) : Option FloatLit :=
  let (neg, rest) := readSign cs
  match splitAtChar 'e' rest with
  | [m] => (readMantissa m).map fun (n, k) => .decimal neg n (-(k : Int))
  | [m, e] =>
    match readMantissa m, readInt e with
    | some (n, k), some x => some (.decimal neg n (x - (k : Int)))
    | _, _ => none
  | _ => none

/-- `<f>` (R53): `f32:0xHHHHHHHH`, or a decimal literal. -/
def readFloat (cs : List Char) : Option FloatLit :=
  match cs with
  | 'f' :: '3' :: '2' :: ':' :: '0' :: 'x' :: hex => (readHex 8 hex).map fun n => .bits (BitVec.ofNat 32 n)
  | _ => readDecimal cs

/-- `<i16>` (R53): `0xHHHH`, or a decimal integer. -/
def readHalf (cs : List Char) : Option HalfLit :=
  match cs with
  | '0' :: 'x' :: hex => (readHex 4 hex).map fun n => .bits (BitVec.ofNat 16 n)
  | _ => (readInt cs).map .int

/-- Four values read from four fields. -/
def readFour {α : Type} (read : List Char → Option α) (a b c d : List Char) : Option (Lanes α) :=
  match read a, read b, read c, read d with
  | some w, some x, some y, some z => some ⟨w, x, y, z⟩
  | _, _, _, _ => none

/-- A field without the opening brace it begins with. -/
def openBrace (cs : List Char) : Option (List Char) :=
  match cs with
  | [] => none
  | c :: rest => if c == Char.ofNat 123 then some (trimBlanks rest) else none

/-- A field without the closing brace it ends with. -/
def closeBrace (cs : List Char) : Option (List Char) :=
  match cs.reverse with
  | [] => none
  | c :: rest => if c == Char.ofNat 125 then some (trimBlanks rest.reverse) else none

/-- One brace group of `DEC` from its four fields (R53). -/
def readGroup (a b c d : List Char) : Option (Lanes HalfLit) :=
  match openBrace a, closeBrace d with
  | some a, some d => readFour readHalf a b c d
  | _, _ => none

/-- `v<k>` after the mnemonic's point (R53). -/
def readVertex (cs : List Char) : Option Nat :=
  match cs with
  | 'v' :: k => readNat k
  | _ => none

/-- A command that takes a vertex select, from what follows its name. -/
def withVertex (suffix : Option (List Char)) (f : Option Nat → AsmLine) : Option AsmLine :=
  match suffix with
  | none => some (f none)
  | some cs => (readVertex cs).map fun k => f (some k)

/-- `SVB`'s operands. -/
def readSvb (c hd : List Char) : Option AsmLine :=
  match readFloat c, readInt hd with
  | some c, some hd => some (.svb c hd)
  | _, _ => none

/-- `CCB`'s operands. -/
def readCcb (x y z w m : List Char) : Option AsmLine :=
  match readFour readFloat x y z w, readInt m with
  | some o, some m => some (.ccb o m)
  | _, _ => none

/-- `LDCELL`'s operands. -/
def readLdcell (c hd x y z w m : List Char) : Option AsmLine :=
  match readFloat c, readInt hd, readFour readFloat x y z w, readInt m with
  | some c, some hd, some o, some m => some (.ldcell c hd o m)
  | _, _, _, _ => none

/-- `DEC`'s three groups. -/
def readDec (suffix : Option (List Char)) (fields : List (List Char)) : Option AsmLine :=
  match fields with
  | [a, b, c, d, e, f, g, h, i, j, k, l] =>
    match readGroup a b c d, readGroup e f g h, readGroup i j k l with
    | some x, some y, some z => withVertex suffix fun v => .dec v x y z
    | _, _, _ => none
  | _ => none

/-- A line from its mnemonic, what follows the mnemonic's point, and its fields (the forms of R53). -/
def readForm (name : List Char) (suffix : Option (List Char)) (fields : List (List Char)) : Option AsmLine :=
  match name, suffix, fields with
  | ['N', 'O', 'P'], none, [[]] => some .nop
  | ['S', 'V', 'B'], none, [c, hd] => readSvb c hd
  | ['W', 'R', 'S', 'V'], none, [a, b, c, d] => (readFour readFloat a b c d).map .wrsv
  | ['R', 'D', 'S', 'V'], none, [[]] => some .rdsv
  | ['C', 'C', 'B'], none, [x, y, z, w, m] => readCcb x y z w m
  | ['W', 'R', 'C', 'C'], none, [a, b, c, d] => (readFour readFloat a b c d).map .wrcc
  | ['R', 'D', 'C', 'C'], none, [[]] => some .rdcc
  | ['D', 'E', 'C'], v, fields => readDec v fields
  | ['R', 'D', 'O', 'U', 'T'], v, [[]] => withVertex v .rdout
  | ['R', 'D', 'S', 'T', 'A', 'T'], none, [[]] => some .rdstat
  | ['L', 'D', 'C', 'E', 'L', 'L'], none, [c, hd, x, y, z, w, m] => readLdcell c hd x y z w m
  | _, _, _ => none

/-- One line of text (R53): the mnemonic first, then the operands separated by commas. -/
def readLine (cs : List Char) : Except AsmError AsmLine :=
  let line := trimBlanks cs
  let head := line.takeWhile fun c => !isBlank c
  let fields := (splitAtChar ',' (line.drop head.length)).map trimBlanks
  let form :=
    match splitAtChar '.' head with
    | [name] => readForm name none fields
    | [name, suffix] => readForm name (some suffix) fields
    | _ => none
  match form with
  | some l => .ok l
  | none => .error .malformed

/-- The commands of one line of text (R53). -/
def assembleText (cs : List Char) : Except AsmError (List Command) :=
  match readLine cs with
  | .ok l => assemble l
  | .error e => .error e

end Sys2Proof.Machine
end

