-- ==== Sys2Proof/Safety.lean ====
section
/-! DEFINITION. What claims speak of: a run without error (60_exceptions.md R83), what a legal command needs and writes as the spec's
tables give it (10_state.md R15, R19, 60_exceptions.md R80), states that agree on what has been written, and when a binary32 pattern
is the correct rounding of an exact value (00_scope.md R7); and when an operand of the assembler is in range (30_encoding.md R53). -/

namespace Sys2Proof.Safety

open Sys2Proof.Machine

/-- No error has been recorded since reset: `STAT.ILL` = 0 and `STAT.UNINIT` = 0 (60_exceptions.md R83). -/
def NoErrorRecorded (s : State) : Prop := s.stat.getLsbD 3 = false ∧ s.stat.getLsbD 4 = false

/-- `STAT[31:5]` are zero (10_state.md R25). -/
def ReservedStatZero (s : State) : Prop := ∀ i, 5 ≤ i → s.stat.getLsbD i = false

/-- An operational block is presented the command `c`, and then `rest`. -/
def Presents (s : State) (c : Command) (rest : List HostEvent) : Prop :=
  s.phase = .operational ∧ s.inbox = .command c :: rest

/-- The command writes `SV` (10_state.md R15). -/
def writesSv (i : Instr) : Bool :=
  match i with
  | .svb _ _ => true
  | .wrsv _ => true
  | _ => false

/-- The command writes `CC` (10_state.md R15). -/
def writesCc (i : Instr) : Bool :=
  match i with
  | .ccb _ _ => true
  | .wrcc _ => true
  | _ => false

/-- The command is a `DEC`, the only one that writes `OUT` (10_state.md R18). -/
def isDec (i : Instr) : Bool :=
  match i with
  | .dec _ _ _ _ => true
  | _ => false

/-- A legal command word's operation needs a register whose valid bit is 0 in `stat` (the table of 60_exceptions.md R80, by `OPC`). -/
def needsUnwritten (opc : Nat) (stat : Word) : Prop :=
  (opc = 7 ∧ (stat.getLsbD 0 = false ∨ stat.getLsbD 1 = false)) ∨ (opc = 3 ∧ stat.getLsbD 0 = false) ∨
    (opc = 6 ∧ stat.getLsbD 1 = false) ∨ (opc = 8 ∧ stat.getLsbD 2 = false)

/-- The event clears registers: `RESET`, alone or with a command, or power. -/
def isResetEvent (e : HostEvent) : Bool :=
  match e with
  | .powerOn => true
  | .reset => true
  | .command _ => false
  | .commandWithReset _ => true

/-- Two states that differ at most in the contents of registers whose valid bit is 0 (10_state.md R30). -/
structure AgreeOnWritten (s t : State) : Prop where
  stat : s.stat = t.stat
  phase : s.phase = t.phase
  inbox : s.inbox = t.inbox
  port : s.port = t.port
  draws : s.draws = t.draws
  sv : s.stat.getLsbD 0 = true → s.sv = t.sv
  cc : s.stat.getLsbD 1 = true → s.cc = t.cc
  out : s.stat.getLsbD 2 = true → s.out = t.out

/-- Two outcomes of the same kind, with agreeing states or the same reason. -/
def AgreeOutcomes (a b : Host.Outcome State Fault Refusal) : Prop :=
  match a, b with
  | .next s, .next t => AgreeOnWritten s t
  | .fault r, .fault q => r = q
  | .refused r, .refused q => r = q
  | _, _ => False

/-- The real value of a finite pattern. -/
def value (x : Word) : ℚ := (units x : ℚ) / 2 ^ 149

/-- The least magnitude that rounds to infinity: half a last place above the largest finite value (00_scope.md R7; its value is IEEE
754's, log entry 9). -/
def overflowThreshold : ℚ := 2 ^ 128 - 2 ^ 103

/-- `r` is `round32(x)` (00_scope.md R7): below the overflow threshold a finite pattern that no finite pattern is nearer to `x`
than, and whose fraction is even if another value is as near; at the threshold and above, the infinity of `x`'s sign. -/
def CorrectlyRounded (x : ℚ) (r : Word) : Prop :=
  (|x| < overflowThreshold →
    isFinite r = true ∧ ∀ y, isFinite y = true →
      |value r - x| ≤ |value y - x| ∧ (|value y - x| = |value r - x| → value y ≠ value r → fracField r % 2 = 0)) ∧
  (overflowThreshold ≤ |x| → isInf r = true ∧ (signBit r = true ↔ x < 0))

/-- One unit in the last place of a normal pattern (40_scale_vector.md R57). -/
def ulp (r : Word) : ℚ := 2 ^ (expField r - 1) / 2 ^ 149

/-- An `<i32>` operand is in range (30_encoding.md R53). -/
def Int32Fits (n : Int) : Prop := -2147483648 ≤ n ∧ n ≤ 2147483647

/-- An `<i16>` operand is in range; a pattern always is (30_encoding.md R53). -/
def HalfFits (l : HalfLit) : Prop :=
  match l with
  | .int n => -32768 ≤ n ∧ n ≤ 32767
  | .bits _ => True

/-- The pattern `h` is what the `<i16>` operand stands for: its signed value, or the pattern itself (30_encoding.md R53). -/
def HalfIs (l : HalfLit) (h : Half) : Prop :=
  match l with
  | .int n => h.toInt = n
  | .bits w => h = w

/-- The vertex a `.v<k>` names; a missing one means `.v0` (30_encoding.md R53). -/
def vertexOf (v : Option Nat) : Nat := v.getD 0

end Sys2Proof.Safety
end

