-- ==== Sys2Proof/Certificates/Slice0/Obligations.lean ====
section
/-! DEFINITION. The statements for the provers. Where a statement says that a NaN results it says so of some NaN pattern, never of
one; where it names `Config.svbArith` or `Config.ccPerm` it holds for every value of them. `draws` is the model's own counter (log
entry 4) and no statement rests on its value. -/

open Sys2Proof Sys2Proof.Machine Sys2Proof.Safety

/-! ## Encoding -/

/-- The encoder's seven words of any instruction, every operand at every value, decode to it (30_encoding.md R40, R44, R47, R48). -/
def Obligations.DecodeInvertsEncode : Prop := ∀ i : Instr, decode (encode i) = .ok i

/-- 30_encoding.md R46 whole, with R43 and R79: a command decodes exactly when the three conditions on `CMD` hold, whatever its
payload; an illegal command, in every state and with every payload, writes `STAT.ILL`, nothing else, and responds `ILL`. -/
def Obligations.LegalityIsOfTheCommandWord : Prop :=
  ∀ (cmd : Word) (d : Payload),
    ((∃ i, decode ⟨cmd, d⟩ = .ok i) ↔
      (cmd.toNat / 2 ^ 6 = 0 ∧ cmd.toNat % 16 ≤ 9 ∧
        (cmd.toNat / 16 % 4 = 0 ∨ cmd.toNat % 16 = 7 ∨ cmd.toNat % 16 = 8))) ∧
    (¬ (cmd.toNat / 2 ^ 6 = 0 ∧ cmd.toNat % 16 ≤ 9 ∧
        (cmd.toNat / 16 % 4 = 0 ∨ cmd.toNat % 16 = 7 ∨ cmd.toNat % 16 = 8)) →
      ∀ (s : State) (rest : List HostEvent), Presents s ⟨cmd, d⟩ rest →
        step s = .next { s with
          inbox := rest, stat := s.stat ||| 0x00000008#32,
          port := .answered ⟨.ill, ⟨0#32, 0#32, 0#32, 0#32⟩⟩ })

/-- The sixteen words of 95_test_vectors.md V32 are all the legal command words. -/
def Obligations.SixteenLegalCommandWords : Prop :=
  ∀ w : Word, legal w = true ↔
    w ∈ [0x00000000#32, 0x00000001#32, 0x00000002#32, 0x00000003#32, 0x00000004#32, 0x00000005#32, 0x00000006#32, 0x00000007#32,
      0x00000008#32, 0x00000009#32, 0x00000017#32, 0x00000027#32, 0x00000037#32, 0x00000018#32, 0x00000028#32, 0x00000038#32]

/-- Encoding a decoded command gives its command word back, and the payload words its operation reads (30_encoding.md R44, R47). -/
def Obligations.EncodeKeepsReadWords : Prop :=
  ∀ (c : Command) (i : Instr), decode c = .ok i →
    (encode i).cmd = c.cmd ∧
    ∀ w : Fin 6, w.val < payloadRead (c.cmd.toNat % 16) → (encode i).d.word w = c.d.word w

/-- 30_encoding.md R49: two payloads that agree on the words the operation reads (R47) give the same outcome, in every state. -/
def Obligations.IgnoredPayloadHasNoEffect : Prop :=
  ∀ (cmd : Word) (d d' : Payload) (s : State),
    (∀ w : Fin 6, w.val < payloadRead (cmd.toNat % 16) → d.word w = d'.word w) →
    runCommand ⟨cmd, d⟩ s = runCommand ⟨cmd, d'⟩ s

/-- 30_encoding.md R48 and 20_memory.md R33: bit `b` of lane `k` of input `i` is bit `16 * (k mod 2) + b` of payload word
`2 * i + k / 2`. -/
def Obligations.DecAssemblesLanesFromWords : Prop :=
  ∀ (v : Fin 4) (d : Payload), ∃ a : Fin 3 → Lanes Half,
    decode ⟨BitVec.ofNat 32 (0x7 + 16 * v.val), d⟩ = .ok (.dec v (a 0) (a 1) (a 2)) ∧
    ∀ (i : Fin 3) (k : Fin 4) (b : Nat), b < 16 →
      ((a i).get k).getLsbD b =
        (d.word ⟨2 * i.val + k.val / 2, by omega⟩).getLsbD (16 * (k.val % 2) + b)

/-- Some words written out from 30_encoding.md R44 decode to their instructions. -/
def Obligations.WordsOfTheOpcodeMapDecode : Prop :=
  decode ⟨0x00000001#32, ⟨0x45000000#32, 0x00000100#32, 0#32, 0#32, 0#32, 0#32⟩⟩ = .ok (.svb 0x45000000#32 0x00000100#32) ∧
  decode ⟨0x00000004#32, ⟨0x447A0000#32, 0x40A00000#32, 0x453B8000#32, 0x40E00000#32, 0x00000064#32, 0#32⟩⟩ =
    .ok (.ccb ⟨0x447A0000#32, 0x40A00000#32, 0x453B8000#32, 0x40E00000#32⟩ 0x00000064#32) ∧
  decode ⟨0x00000028#32, ⟨0#32, 0#32, 0#32, 0#32, 0#32, 0#32⟩⟩ = .ok (.rdout 2) ∧
  decode ⟨0x00000009#32, ⟨0#32, 0#32, 0#32, 0#32, 0#32, 0#32⟩⟩ = .ok .rdstat

/-- An instruction sent as bytes, in either byte order and with anything after it, is read back with the rest left (20_memory.md
R35). The order of the seven words in the stream is the model's choice (log entry 11). -/
def Obligations.ByteStreamDecodesInEitherOrder : Prop :=
  ∀ (o : ByteOrder) (i : Instr) (rest : List Byte),
    decodeBytes o (commandToBytes o (encode i) ++ rest) = .ok (i, rest)

/-! ## Steps and responses -/

/-- A step of an operational block that is presented a legal command is `exec` of its instruction, on the state with the command
taken from what the host presents (00_scope.md R10). -/
def Obligations.StepRunsTheDecodedCommand : Prop :=
  ∀ (s : State) (c : Command) (rest : List HostEvent) (i : Instr),
    Presents s c rest → decode c = .ok i → step s = exec i { s with inbox := rest }

/-- Every command gets one response, whose code is never 3, with four zero words if it is not `OK`, and the block goes on (00_scope.md
R10, 30_encoding.md R50, 60_exceptions.md R87); `ILL` exactly for an illegal word, which is checked first (R82). -/
def Obligations.EveryCommandGetsOneResponse : Prop :=
  ∀ (s : State) (c : Command) (rest : List HostEvent), Presents s c rest →
    ∃ (t : State) (r : Response), step s = .next t ∧ t.port = .answered r ∧ t.inbox = rest ∧ t.phase = .operational ∧
      respBits r.rc ≠ 3#2 ∧ (r.rc ≠ .ok → r.r = ⟨0#32, 0#32, 0#32, 0#32⟩) ∧ (r.rc = .ill ↔ legal c.cmd = false)

/-- 60_exceptions.md R81: a command whose response is not `OK` writes the one sticky bit of its code and nothing else. -/
def Obligations.FailedCommandWritesOneStickyBit : Prop :=
  ∀ (s t : State) (c : Command) (rest : List HostEvent) (rc : RespCode) (r : Lanes Word),
    Presents s c rest → step s = .next t → t.port = .answered ⟨rc, r⟩ → rc ≠ .ok →
    t.sv = s.sv ∧ t.cc = s.cc ∧ t.out = s.out ∧ t.phase = s.phase ∧ t.inbox = rest ∧ t.draws = s.draws ∧
    r = ⟨0#32, 0#32, 0#32, 0#32⟩ ∧
    (rc = .ill → ∀ i, t.stat.getLsbD i = (s.stat.getLsbD i || decide (i = 3))) ∧
    (rc = .uninit → ∀ i, t.stat.getLsbD i = (s.stat.getLsbD i || decide (i = 4)))

/-- 60_exceptions.md R80: a legal command fails with `UNINIT` exactly when the table says its operation reads a register whose valid
bit is 0, and then it writes only `STAT.UNINIT`. -/
def Obligations.UninitExactlyWhenValidBitClear : Prop :=
  ∀ (s : State) (c : Command) (rest : List HostEvent), Presents s c rest → legal c.cmd = true →
    ((∃ (t : State) (r : Lanes Word), step s = .next t ∧ t.port = .answered ⟨.uninit, r⟩) ↔
      needsUnwritten (c.cmd.toNat % 16) s.stat) ∧
    (needsUnwritten (c.cmd.toNat % 16) s.stat →
      step s = .next { s with
        inbox := rest, stat := s.stat ||| 0x00000010#32,
        port := .answered ⟨.uninit, ⟨0#32, 0#32, 0#32, 0#32⟩⟩ })

/-- 60_exceptions.md R83: no error is recorded after a command exactly when none was recorded before it and its response is `OK`. -/
def Obligations.ErrorRecordedExactlyOnError : Prop :=
  ∀ (s t : State) (c : Command) (rest : List HostEvent), Presents s c rest → step s = .next t →
    (NoErrorRecorded t ↔ NoErrorRecorded s ∧ ∃ r, t.port = .answered ⟨.ok, r⟩)

/-- A step answers a next state, but for a command presented before the first `RESET`, which is refused (60_exceptions.md R78, R93;
log entry 8). -/
def Obligations.OnlyUnresetBlockRefuses : Prop :=
  ∀ s : State, (∃ t, step s = .next t) ∨
    (step s = .refused .beforeReset ∧ s.phase = .unreset ∧ ∃ c rest, s.inbox = .command c :: rest)

/-- A command presented before the first `RESET` is refused (60_exceptions.md R93, 93_implementation_defined.md U11; log entry 8). -/
def Obligations.CommandBeforeResetIsRefused : Prop :=
  ∀ (s : State) (c : Command) (rest : List HostEvent),
    s.phase = .unreset → s.inbox = .command c :: rest → step s = .refused .beforeReset

/-- With nothing presented the block holds all its state and drives nothing (60_exceptions.md R93). -/
def Obligations.IdleStepHoldsAllState : Prop :=
  ∀ s : State, s.inbox = [] → step s = .next { s with port := .silent }

/-! ## Reset -/

/-- `RESET`, from every state, clears `STAT`, makes the block operational and drives no response (70_reset_and_hazards.md R94,
10_state.md R30). The contents of the three vector registers, which the spec leaves unspecified, are not spoken of. -/
def Obligations.ResetClearsStatus : Prop :=
  ∀ (s : State) (rest : List HostEvent), s.inbox = .reset :: rest →
    ∃ t, step s = .next t ∧ t.stat = 0#32 ∧ t.phase = .operational ∧ t.port = .silent ∧ t.inbox = rest

/-- `RESET` with a command (70_reset_and_hazards.md R95): either `RESET` came last and `STAT` is 0, or it came first and the result is
that of the command on a reset state: one with `STAT` = 0 whose contents of `SV`, `CC` and `OUT` are not spoken of (10_state.md R30).
Either way the response is lost. `Config.resetFirst` is the free choice of log entry 7. -/
def Obligations.ResetWithCommandTakesOneOrder : Prop :=
  ∀ (s : State) (c : Command) (rest : List HostEvent), s.inbox = .commandWithReset c :: rest →
    ∃ t, step s = .next t ∧ t.port = .lost ∧ t.phase = .operational ∧ t.inbox = rest ∧
      (Config.resetFirst s.draws = false ∧ t.stat = 0#32 ∨
        Config.resetFirst s.draws = true ∧ ∃ r u : State,
          r.stat = 0#32 ∧ r.phase = .operational ∧ r.inbox = rest ∧ r.port = .silent ∧
          runCommand c r = .next u ∧ t = { u with port := .lost })

/-- After reset `STAT` is 0x00000000, nothing is driven and the block takes commands (10_state.md R30). -/
def Obligations.ResetStateHasZeroStatus : Prop :=
  State.reset.stat = 0x00000000#32 ∧ State.reset.port = .silent ∧ State.reset.phase = .operational

/-! ## The status register over steps -/

/-- `STAT[31:5]` stay zero in every step (10_state.md R25). -/
def Obligations.ReservedStatusBitsStayZero : Prop :=
  ∀ s t : State, ReservedStatZero s → step s = .next t → ReservedStatZero t

/-- The reset state has `STAT[31:5]` zero (10_state.md R25, R30). -/
def Obligations.ReservedStatusBitsZeroAtReset : Prop := ReservedStatZero State.reset

/-- No step but a reset or power clears a bit of `STAT` (10_state.md R19, R20 to R24). -/
def Obligations.StatusBitsClearedOnlyByReset : Prop :=
  ∀ s t : State, step s = .next t → (∀ e rest, s.inbox = e :: rest → isResetEvent e = false) →
    ∀ i, s.stat.getLsbD i = true → t.stat.getLsbD i = true

/-- All of `STAT` after a legal command (the table of 10_state.md R19): bit 0 by `SVB` and `WRSV`, bit 1 by `CCB` and `WRCC`, bit 2 by
a successful `DEC`, bit 4 by a command that needs an unwritten register, and every other bit as it was. -/
def Obligations.StatusAfterLegalCommand : Prop :=
  ∀ (s t : State) (c : Command) (rest : List HostEvent) (i : Instr),
    Presents s c rest → decode c = .ok i → step s = .next t → ∀ b : Nat,
      (t.stat.getLsbD b = true ↔
        s.stat.getLsbD b = true ∨ (b = 0 ∧ writesSv i = true) ∨ (b = 1 ∧ writesCc i = true) ∨
        (b = 2 ∧ isDec i = true ∧ s.stat.getLsbD 0 = true ∧ s.stat.getLsbD 1 = true) ∨
        (b = 4 ∧ needsUnwritten (c.cmd.toNat % 16) s.stat))

/-- 10_state.md R15, R18: a command changes `SV` only if it is `SVB` or `WRSV`, `CC` only if it is `CCB` or `WRCC`, `OUT` only if it
is a `DEC` with both valid bits set; an illegal command changes none (70_reset_and_hazards.md R99). -/
def Obligations.RegistersWrittenOnlyByTheirCommands : Prop :=
  ∀ (s t : State) (c : Command) (rest : List HostEvent), Presents s c rest → step s = .next t →
    (t.sv ≠ s.sv → ∃ i, decode c = .ok i ∧ writesSv i = true) ∧
    (t.cc ≠ s.cc → ∃ i, decode c = .ok i ∧ writesCc i = true) ∧
    (t.out ≠ s.out → ∃ i, decode c = .ok i ∧ isDec i = true ∧ s.stat.getLsbD 0 = true ∧ s.stat.getLsbD 1 = true)

/-- The contents of a register whose valid bit is 0 cannot be observed (10_state.md R30, 70_reset_and_hazards.md R94): two states
that agree on `STAT` and on every written register take steps of the same kind, with the same responses, to states that so agree. -/
def Obligations.UnwrittenContentsAreUnobservable : Prop :=
  ∀ s t : State, AgreeOnWritten s t → AgreeOutcomes (step s) (step t)

/-! ## Instructions -/

/-- `NOP` (43_control.md R76), with any payload. -/
def Obligations.NopOnlyResponds : Prop :=
  ∀ (d : Payload) (s : State), decode ⟨0x00000000#32, d⟩ = .ok .nop ∧
    exec .nop s = .next { s with port := .answered ⟨.ok, ⟨0#32, 0#32, 0#32, 0#32⟩⟩ }

/-- `RDSTAT` (43_control.md R77), with any payload: `STAT` is returned and unchanged. -/
def Obligations.RdstatReturnsStatus : Prop :=
  ∀ (d : Payload) (s : State), decode ⟨0x00000009#32, d⟩ = .ok .rdstat ∧
    exec .rdstat s = .next { s with port := .answered ⟨.ok, ⟨s.stat, 0#32, 0#32, 0#32⟩⟩ }

/-- `SVB` (40_scale_vector.md R55, R57), for every operand (R56): the four lanes, `STAT.SVV`, the response, and nothing else. -/
def Obligations.SvbBuildsScaleVector : Prop :=
  ∀ (d : Payload) (s : State), decode ⟨0x00000001#32, d⟩ = .ok (.svb d.d0 d.d1) ∧
    ∃ (t : State) (n0 n1 : Word), isNaN n0 = true ∧ isNaN n1 = true ∧
      exec (.svb d.d0 d.d1) s = .next t ∧
      t.sv.l0 = qscale Config.svbArith n0 d.d0 ∧ t.sv.l1 = qscale Config.svbArith n1 (cvtI32F32 d.d1.toInt) ∧
      t.sv.l2 = t.sv.l0 ∧ t.sv.l3 = 0x00000000#32 ∧
      (∀ i, t.stat.getLsbD i = (s.stat.getLsbD i || decide (i = 0))) ∧
      t.port = .answered ⟨.ok, ⟨0#32, 0#32, 0#32, 0#32⟩⟩ ∧
      t.cc = s.cc ∧ t.out = s.out ∧ t.phase = s.phase ∧ t.inbox = s.inbox

/-- `WRSV` (40_scale_vector.md R58): the four payload words become `SV` unchanged. -/
def Obligations.WrsvLoadsPatterns : Prop :=
  ∀ (d : Payload) (s : State), decode ⟨0x00000002#32, d⟩ = .ok (.wrsv ⟨d.d0, d.d1, d.d2, d.d3⟩) ∧
    exec (.wrsv ⟨d.d0, d.d1, d.d2, d.d3⟩) s = .next { s with
      sv := ⟨d.d0, d.d1, d.d2, d.d3⟩, stat := s.stat ||| 0x00000001#32,
      port := .answered ⟨.ok, ⟨0#32, 0#32, 0#32, 0#32⟩⟩ }

/-- `RDSV` (40_scale_vector.md R59): the lanes of `SV`, or `UNINIT` if it has not been written. -/
def Obligations.RdsvReturnsLanesOrFails : Prop :=
  ∀ (d : Payload) (s : State), decode ⟨0x00000003#32, d⟩ = .ok .rdsv ∧
    (s.stat.getLsbD 0 = true → exec .rdsv s = .next { s with port := .answered ⟨.ok, s.sv⟩ }) ∧
    (s.stat.getLsbD 0 = false → exec .rdsv s = .next { s with
      stat := s.stat ||| 0x00000010#32, port := .answered ⟨.uninit, ⟨0#32, 0#32, 0#32, 0#32⟩⟩ })

/-- `CCB` (41_cell_coords.md R62): `CC` by the lane choice of R61 under each value of `CC_PERM`, `STAT.CCV`, and nothing else. -/
def Obligations.CcbBuildsCellCoords : Prop :=
  ∀ (d : Payload) (s : State), decode ⟨0x00000004#32, d⟩ = .ok (.ccb ⟨d.d0, d.d1, d.d2, d.d3⟩ d.d4) ∧
    ∃ v : Lanes Word,
      exec (.ccb ⟨d.d0, d.d1, d.d2, d.d3⟩ d.d4) s = .next { s with
        cc := v, stat := s.stat ||| 0x00000002#32, port := .answered ⟨.ok, ⟨0#32, 0#32, 0#32, 0#32⟩⟩ } ∧
      v.l1 = cvtI32F32 d.d4.toInt ∧ v.l2 = d.d2 ∧
      (Config.ccPerm = .oxHtOzOz ∧ v.l0 = d.d0 ∧ v.l3 = d.d2 ∨
        Config.ccPerm = .ozHtOzOz ∧ v.l0 = d.d2 ∧ v.l3 = d.d2 ∨
        Config.ccPerm = .oxHtOzOw ∧ v.l0 = d.d0 ∧ v.l3 = d.d3)

/-- 41_cell_coords.md R61: the three lane choices; in each, lane 1 is `m`, lane 2 is `oz` and `oy` is never used. -/
def Obligations.CellCoordsLaneChoices : Prop :=
  ∀ (ox oy oy' oz ow m : Word),
    cellCoords .oxHtOzOz ⟨ox, oy, oz, ow⟩ m = ⟨ox, m, oz, oz⟩ ∧
    cellCoords .ozHtOzOz ⟨ox, oy, oz, ow⟩ m = ⟨oz, m, oz, oz⟩ ∧
    cellCoords .oxHtOzOw ⟨ox, oy, oz, ow⟩ m = ⟨ox, m, oz, ow⟩ ∧
    ∀ p : CcPerm, (cellCoords p ⟨ox, oy, oz, ow⟩ m).l1 = m ∧ (cellCoords p ⟨ox, oy, oz, ow⟩ m).l2 = oz ∧
      cellCoords p ⟨ox, oy, oz, ow⟩ m = cellCoords p ⟨ox, oy', oz, ow⟩ m

/-- `WRCC` (41_cell_coords.md R63): the four payload words become `CC` unchanged. -/
def Obligations.WrccLoadsPatterns : Prop :=
  ∀ (d : Payload) (s : State), decode ⟨0x00000005#32, d⟩ = .ok (.wrcc ⟨d.d0, d.d1, d.d2, d.d3⟩) ∧
    exec (.wrcc ⟨d.d0, d.d1, d.d2, d.d3⟩) s = .next { s with
      cc := ⟨d.d0, d.d1, d.d2, d.d3⟩, stat := s.stat ||| 0x00000002#32,
      port := .answered ⟨.ok, ⟨0#32, 0#32, 0#32, 0#32⟩⟩ }

/-- `RDCC` (41_cell_coords.md R64): the lanes of `CC`, or `UNINIT` if it has not been written. -/
def Obligations.RdccReturnsLanesOrFails : Prop :=
  ∀ (d : Payload) (s : State), decode ⟨0x00000006#32, d⟩ = .ok .rdcc ∧
    (s.stat.getLsbD 1 = true → exec .rdcc s = .next { s with port := .answered ⟨.ok, s.cc⟩ }) ∧
    (s.stat.getLsbD 1 = false → exec .rdcc s = .next { s with
      stat := s.stat ||| 0x00000010#32, port := .answered ⟨.uninit, ⟨0#32, 0#32, 0#32, 0#32⟩⟩ })

/-- `DEC` with both valid bits set (42_position_decode.md R70, R71): the sixteen lanes, the selected vertex as the response,
`STAT.OUTV`, and nothing else. Each lane is a product and then a sum, each rounded once; `n` and `m` are the NaNs they would draw. -/
def Obligations.DecDecodesFourVertices : Prop :=
  ∀ (k : Fin 4) (a0 a1 a2 : Lanes Half) (s : State), s.stat.getLsbD 0 = true → s.stat.getLsbD 1 = true →
    ∃ t, exec (.dec k a0 a1 a2) s = .next t ∧
      (∀ v : Fin 4,
        (∃ n m : Word, isNaN n = true ∧ isNaN m = true ∧
          (t.out.get v).l0 = fadd32 m (fmul32 n (cvtI32F32 (a0.get v).toInt) s.sv.l0) s.cc.l0) ∧
        (∃ n m : Word, isNaN n = true ∧ isNaN m = true ∧
          (t.out.get v).l1 = fadd32 m (fmul32 n (cvtI32F32 (a1.get v).toInt) s.sv.l1) s.cc.l1) ∧
        (∃ n m : Word, isNaN n = true ∧ isNaN m = true ∧
          (t.out.get v).l2 = fadd32 m (fmul32 n (cvtI32F32 (a2.get v).toInt) s.sv.l2) s.cc.l2) ∧
        (∃ n m : Word, isNaN n = true ∧ isNaN m = true ∧
          (t.out.get v).l3 = fadd32 m (fmul32 n 0x00000000#32 s.sv.l3) s.cc.l3)) ∧
      (∀ i, t.stat.getLsbD i = (s.stat.getLsbD i || decide (i = 2))) ∧
      t.port = .answered ⟨.ok, t.out.get k⟩ ∧
      t.sv = s.sv ∧ t.cc = s.cc ∧ t.phase = s.phase ∧ t.inbox = s.inbox

/-- `DEC` with a valid bit clear fails with `UNINIT` and writes no part of `OUT` (42_position_decode.md R71, 60_exceptions.md R80). -/
def Obligations.DecFailsUnlessBothWritten : Prop :=
  ∀ (k : Fin 4) (a0 a1 a2 : Lanes Half) (s : State), (s.stat.getLsbD 0 = false ∨ s.stat.getLsbD 1 = false) →
    exec (.dec k a0 a1 a2) s = .next { s with
      stat := s.stat ||| 0x00000010#32, port := .answered ⟨.uninit, ⟨0#32, 0#32, 0#32, 0#32⟩⟩ }

/-- `RDOUT` (42_position_decode.md R72), for each of its four words: the selected vertex, or `UNINIT`. -/
def Obligations.RdoutReturnsVertexOrFails : Prop :=
  ∀ (k : Fin 4) (d : Payload) (s : State), decode ⟨BitVec.ofNat 32 (0x8 + 16 * k.val), d⟩ = .ok (.rdout k) ∧
    (s.stat.getLsbD 2 = true → exec (.rdout k) s = .next { s with port := .answered ⟨.ok, s.out.get k⟩ }) ∧
    (s.stat.getLsbD 2 = false → exec (.rdout k) s = .next { s with
      stat := s.stat ||| 0x00000010#32, port := .answered ⟨.uninit, ⟨0#32, 0#32, 0#32, 0#32⟩⟩ })

/-! ## Numbers -/

/-- `fmul32` of finite values is their exact product rounded once, with the exclusive-or of the signs (00_scope.md R7). That the sign
holds of a nonzero product too, one that underflows to zero included, is IEEE 754's (log entry 9). -/
def Obligations.FmulRoundsTheExactProduct : Prop :=
  ∀ nan a b : Word, isFinite a = true → isFinite b = true →
    CorrectlyRounded (value a * value b) (fmul32 nan a b) ∧
    signBit (fmul32 nan a b) = (signBit a ^^ signBit b)

/-- `fadd32` of finite values is their exact sum rounded once; a zero sum is −0 only of two negative signs (00_scope.md R7).
The sign of a zero sum beyond R7's `(+0) + (−0)` is IEEE 754's (log entry 9). -/
def Obligations.FaddRoundsTheExactSum : Prop :=
  ∀ nan a b : Word, isFinite a = true → isFinite b = true →
    CorrectlyRounded (value a + value b) (fadd32 nan a b) ∧
    (value a + value b = 0 →
      fadd32 nan a b = if signBit a = true ∧ signBit b = true then 0x80000000#32 else 0x00000000#32)

/-- `cvt_i32_f32(n)` is `round32(n)` (00_scope.md R7), for every signed 32-bit pattern. -/
def Obligations.IntegerConversionRounds : Prop :=
  ∀ w : Word, CorrectlyRounded (w.toInt : ℚ) (cvtI32F32 w.toInt)

/-- The conversion is exact up to 2^24 in magnitude, and so of every quantized lane (42_position_decode.md R67). -/
def Obligations.SmallIntegersConvertExactly : Prop :=
  (∀ n : Int, n.natAbs ≤ 2 ^ 24 → isFinite (cvtI32F32 n) = true ∧ value (cvtI32F32 n) = (n : ℚ)) ∧
  (∀ h : Half, isFinite (cvtI32F32 h.toInt) = true ∧ value (cvtI32F32 h.toInt) = (h.toInt : ℚ)) ∧
  cvtI32F32 0 = 0x00000000#32

/-- `EXACT_DIV` is the correctly rounded quotient by 32767 (40_scale_vector.md R54). That the sign is `x`'s when the quotient of a
nonzero `x` underflows to zero is IEEE 754's (log entry 9). -/
def Obligations.ExactDivRoundsTheQuotient : Prop :=
  ∀ nan x : Word, isFinite x = true →
    CorrectlyRounded (value x / 32767) (qscale .exactDiv nan x) ∧ signBit (qscale .exactDiv nan x) = signBit x

/-- `K` is the pattern 0x38000100, the value 2^-15 + 2^-30, and `round32(1/32767)` (10_state.md R26). -/
def Obligations.QuantConstantIsRounded : Prop :=
  quantK = 0x38000100#32 ∧ value quantK = 1 / 2 ^ 15 + 1 / 2 ^ 30 ∧ CorrectlyRounded (1 / 32767) quantK

/-- Under either value of `SVB_ARITH`: a NaN gives the drawn NaN, an infinity itself, a zero itself (40_scale_vector.md R54). -/
def Obligations.QscaleOfSpecialValues : Prop :=
  ∀ (arith : SvbArith) (nan x : Word),
    (isNaN x = true → qscale arith nan x = nan) ∧ (isInf x = true → qscale arith nan x = x) ∧
    (isZero x = true → qscale arith nan x = x)

/-- Under `F32_RECIP` a normal result is within one unit in the last place of the real quotient (40_scale_vector.md R57). -/
def Obligations.ReciprocalScaleWithinOneUlp : Prop :=
  ∀ nan x : Word, isFinite x = true → isFinite (qscale .f32Recip nan x) = true → 1 ≤ expField (qscale .f32Recip nan x) →
    |value (qscale .f32Recip nan x) - value x / 32767| ≤ ulp (qscale .f32Recip nan x)

/-- The IEEE special cases of `fmul32` (00_scope.md R7): a NaN operand and 0 × ∞ give a NaN, ∞ times a nonzero number is ∞ and zero
times a finite number is zero, with the exclusive-or of the signs. What R7's list leaves to IEEE 754 is log entry 9. -/
def Obligations.FmulSpecialCases : Prop :=
  ∀ nan a b : Word,
    (isNaN a = true ∨ isNaN b = true → fmul32 nan a b = nan) ∧
    (isZero a = true ∧ isInf b = true ∨ isInf a = true ∧ isZero b = true → fmul32 nan a b = nan) ∧
    (isInf a = true ∧ isNaN b = false ∧ isZero b = false ∨ isInf b = true ∧ isNaN a = false ∧ isZero a = false →
      isInf (fmul32 nan a b) = true ∧ signBit (fmul32 nan a b) = (signBit a ^^ signBit b)) ∧
    (isZero a = true ∧ isFinite b = true ∨ isZero b = true ∧ isFinite a = true →
      isZero (fmul32 nan a b) = true ∧ signBit (fmul32 nan a b) = (signBit a ^^ signBit b))

/-- The IEEE special cases of `fadd32` (00_scope.md R7): a NaN operand and ∞ + (−∞) give a NaN; otherwise an infinite operand is the
sum; a zero added to a nonzero finite value gives that value. What R7's list leaves to IEEE 754 is log entry 9. -/
def Obligations.FaddSpecialCases : Prop :=
  ∀ nan a b : Word,
    (isNaN a = true ∨ isNaN b = true → fadd32 nan a b = nan) ∧
    (isInf a = true → isInf b = true → signBit a ≠ signBit b → fadd32 nan a b = nan) ∧
    (isInf a = true → isNaN b = false → (isInf b = true → signBit b = signBit a) → fadd32 nan a b = a) ∧
    (isInf b = true → isFinite a = true → fadd32 nan a b = b) ∧
    (isZero a = true → isFinite b = true → isZero b = false → fadd32 nan a b = b) ∧
    (isZero b = true → isFinite a = true → isZero a = false → fadd32 nan a b = a)

/-- The NaN draws are NaNs, and the patterns they come from are all the NaNs: every sign and every nonzero fraction (60_exceptions.md
R85). -/
def Obligations.NanPatternsAreAllTheNaNs : Prop :=
  (∀ w : Word, isNaN w = true ↔ ∃ (neg : Bool) (f : Fin 8388607), w = nanPattern neg f) ∧
  (∀ n : Nat, isNaN (drawnNaN n) = true)

/-- Before the add, lanes 0 to 2 are `round32(sint(A) × SV[j])` (42_position_decode.md R68, R75). -/
def Obligations.ScaledLaneIsRoundedProduct : Prop :=
  ∀ (nan : Word) (h : Half) (s : Word), isFinite s = true →
    CorrectlyRounded ((h.toInt : ℚ) * value s) (fmul32 nan (cvtI32F32 h.toInt) s)

/-- 42_position_decode.md R73: lane 3 of every vertex is `CC[3]` if `SV[3]` is finite, but for −0 and a positive `SV[3]`, and a NaN if
`SV[3]` is not finite or `CC[3]` is a NaN. -/
def Obligations.PadLaneOfEveryVertex : Prop :=
  ∀ (nan : Nat → Word) (a0 a1 a2 : Lanes Half) (s c : Lanes Word) (k : Fin 4), (∀ i, isNaN (nan i) = true) →
    (isFinite s.l3 = true → isNaN c.l3 = false →
      ((vdecode nan a0 a1 a2 s c).get k).l3 =
        if c.l3 = 0x80000000#32 ∧ signBit s.l3 = false then 0x00000000#32 else c.l3) ∧
    (isFinite s.l3 = false → isNaN ((vdecode nan a0 a1 a2 s c).get k).l3 = true) ∧
    (isNaN c.l3 = true → isNaN ((vdecode nan a0 a1 a2 s c).get k).l3 = true)

/-- All-zero inputs with an all-zero `CC` decode to the zero vector for every finite `SV` (42_position_decode.md R75, "Zero"). -/
def Obligations.ZeroInputsDecodeToZero : Prop :=
  ∀ (nan : Nat → Word) (s : Lanes Word), (∀ j, isFinite (s.get j) = true) →
    vdecode nan (Lanes.fill 0#16) (Lanes.fill 0#16) (Lanes.fill 0#16) s (Lanes.fill 0#32) = Lanes.fill (Lanes.fill 0#32)

/-! ## Assembler -/

/-- Every command the assembler gives, from a line or from its text, is legal and decodes (30_encoding.md R53, R46). -/
def Obligations.AssembledCommandsAreLegal : Prop :=
  (∀ (l : AsmLine) (cs : List Command), assemble l = .ok cs → ∀ c ∈ cs, legal c.cmd = true ∧ ∃ i, decode c = .ok i) ∧
  (∀ (text : List Char) (cs : List Command), assembleText text = .ok cs →
    ∀ c ∈ cs, legal c.cmd = true ∧ ∃ i, decode c = .ok i)

/-- Operands in range come through the assembler and the decoder with their value; out of range they are refused, not wrapped
(30_encoding.md R53): the `<i32>` operands of `SVB`, `CCB` and `LDCELL`, the twelve `<i16>` lanes of `DEC`, and the `.v<k>` of `DEC`
and `RDOUT`, a missing one being `.v0`. Which of two refusals a `DEC` line with both faults gets is the model's choice (log entry
12). -/
def Obligations.AssemblerRefusesWhatDoesNotFit : Prop :=
  (∀ (c : FloatLit) (hd : Int),
    (Int32Fits hd → ∃ cmd w, assemble (.svb c hd) = .ok [cmd] ∧ decode cmd = .ok (.svb (floatLit c) w) ∧ w.toInt = hd) ∧
    (¬ Int32Fits hd → assemble (.svb c hd) = .error .int32Range)) ∧
  (∀ (o : Lanes FloatLit) (m : Int),
    (Int32Fits m → ∃ cmd w, assemble (.ccb o m) = .ok [cmd] ∧ decode cmd = .ok (.ccb (floatLits o) w) ∧ w.toInt = m) ∧
    (¬ Int32Fits m → assemble (.ccb o m) = .error .int32Range)) ∧
  (∀ (c : FloatLit) (hd : Int) (o : Lanes FloatLit) (m : Int),
    (Int32Fits hd ∧ Int32Fits m → ∃ x y w z, assemble (.ldcell c hd o m) = .ok [x, y] ∧
      decode x = .ok (.svb (floatLit c) w) ∧ w.toInt = hd ∧ decode y = .ok (.ccb (floatLits o) z) ∧ z.toInt = m) ∧
    (¬ (Int32Fits hd ∧ Int32Fits m) → assemble (.ldcell c hd o m) = .error .int32Range)) ∧
  (∀ (v : Option Nat) (a0 a1 a2 : Lanes HalfLit),
    (vertexOf v < 4 → (∀ j, HalfFits (a0.get j) ∧ HalfFits (a1.get j) ∧ HalfFits (a2.get j)) →
      ∃ cmd k b0 b1 b2, assemble (.dec v a0 a1 a2) = .ok [cmd] ∧ decode cmd = .ok (.dec k b0 b1 b2) ∧ k.val = vertexOf v ∧
        ∀ j, HalfIs (a0.get j) (b0.get j) ∧ HalfIs (a1.get j) (b1.get j) ∧ HalfIs (a2.get j) (b2.get j)) ∧
    (vertexOf v < 4 → (∃ j, ¬ (HalfFits (a0.get j) ∧ HalfFits (a1.get j) ∧ HalfFits (a2.get j))) →
      assemble (.dec v a0 a1 a2) = .error .int16Range) ∧
    (¬ vertexOf v < 4 → assemble (.dec v a0 a1 a2) = .error .vertexRange)) ∧
  (∀ v : Option Nat,
    (vertexOf v < 4 → ∃ cmd k, assemble (.rdout v) = .ok [cmd] ∧ decode cmd = .ok (.rdout k) ∧ k.val = vertexOf v) ∧
    (¬ vertexOf v < 4 → assemble (.rdout v) = .error .vertexRange))

/-- `LDCELL` is the commands of `SVB` and then of `CCB` with its operands (30_encoding.md R53). -/
def Obligations.LdcellIsSvbThenCcb : Prop :=
  ∀ (c : FloatLit) (hd : Int) (o : Lanes FloatLit) (m : Int) (x y : Command),
    assemble (.svb c hd) = .ok [x] → assemble (.ccb o m) = .ok [y] → assemble (.ldcell c hd o m) = .ok [x, y]

/-- A decimal `<f>` literal `± digits × 10^e` stands for its `round32` value and keeps its sign, so that `-0.0` is −0
(95_test_vectors.md V15); `f32:` stands for its pattern (30_encoding.md R53, 00_scope.md R7). Two clauses are the model's reading: that
a nonzero negative literal which rounds to zero is −0 is IEEE 754's sign (log entry 9), and that a literal at the overflow threshold or
past it is an infinity, not out of range, is log entry 12's. -/
def Obligations.DecimalLiteralsAreRounded : Prop :=
  (∀ (neg : Bool) (digits : Nat) (e : Int),
    CorrectlyRounded ((if neg then -1 else 1) * (digits : ℚ) * 10 ^ e) (floatLit (.decimal neg digits e)) ∧
    signBit (floatLit (.decimal neg digits e)) = neg) ∧
  ∀ w : Word, floatLit (.bits w) = w

/-- Under `F32_RECIP`, `qscale(x)` is `fmul32(x, K)` (40_scale_vector.md R54, 10_state.md R26): of a finite `x`, the exact product
with `K` rounded once, subnormal results included. That the sign is `x`'s when the product underflows to zero is IEEE 754's (log
entry 9). -/
def Obligations.ReciprocalScaleRoundsTheProduct : Prop :=
  ∀ nan x : Word, qscale .f32Recip nan x = fmul32 nan x quantK ∧
    (isFinite x = true →
      CorrectlyRounded (value x * value quantK) (qscale .f32Recip nan x) ∧ signBit (qscale .f32Recip nan x) = signBit x)

/-- The lines that no range check can refuse assemble to one command, which decodes to the instruction they name (30_encoding.md
R53). -/
def Obligations.LinesAssembleToTheirInstructions : Prop :=
  (∃ cmd, assemble .nop = .ok [cmd] ∧ decode cmd = .ok .nop) ∧
  (∀ v : Lanes FloatLit, ∃ cmd, assemble (.wrsv v) = .ok [cmd] ∧
    decode cmd = .ok (.wrsv ⟨floatLit v.l0, floatLit v.l1, floatLit v.l2, floatLit v.l3⟩)) ∧
  (∃ cmd, assemble .rdsv = .ok [cmd] ∧ decode cmd = .ok .rdsv) ∧
  (∀ v : Lanes FloatLit, ∃ cmd, assemble (.wrcc v) = .ok [cmd] ∧
    decode cmd = .ok (.wrcc ⟨floatLit v.l0, floatLit v.l1, floatLit v.l2, floatLit v.l3⟩)) ∧
  (∃ cmd, assemble .rdcc = .ok [cmd] ∧ decode cmd = .ok .rdcc) ∧
  (∃ cmd, assemble .rdstat = .ok [cmd] ∧ decode cmd = .ok .rdstat)

/-- Power, from every state (60_exceptions.md R93): the block is unreset, the rest of what the host presents is kept, nothing is
driven, and every lane of every register, and `STAT[4:0]`, is a free value drawn by this step, `STAT[31:5]` zero. That it is so is the
model's choice, log entry 8. -/
def Obligations.PowerLeavesEveryRegisterFree : Prop :=
  ∀ (s : State) (rest : List HostEvent), s.inbox = .powerOn :: rest →
    ∃ t, step s = .next t ∧ t.phase = .unreset ∧ t.inbox = rest ∧ t.port = .silent ∧
      (∀ j, ∃ n, s.draws ≤ n ∧ n < t.draws ∧ t.sv.get j = Config.powerUpWord n) ∧
      (∀ j, ∃ n, s.draws ≤ n ∧ n < t.draws ∧ t.cc.get j = Config.powerUpWord n) ∧
      (∀ k j, ∃ n, s.draws ≤ n ∧ n < t.draws ∧ (t.out.get k).get j = Config.powerUpWord n) ∧
      ∃ n, s.draws ≤ n ∧ n < t.draws ∧ t.stat = Config.powerUpWord n &&& 0x0000001F#32
end

