-- ==== Sys2Proof/Laws/Decode.lean ====
section
/-! SUPPORT. Small facts about the decoder and the encoder: what the decoder gives for each row of the opcode map, which words are
left, and that packed lanes and serialised words come back. -/

namespace Sys2Proof.Laws.Decode

@[simp] theorem packPair_low (lo hi : Half) : (packPair lo hi).extractLsb' 0 16 = lo := by
  apply BitVec.eq_of_getLsbD_eq
  intro i h
  simp [packPair, h]
  omega

@[simp] theorem packPair_high (lo hi : Half) : (packPair lo hi).extractLsb' 16 16 = hi := by
  apply BitVec.eq_of_getLsbD_eq
  intro i h
  have h32 : 16 + i < 32 := by omega
  simp [packPair, h, h32]

/-- Packing the four lanes of an input vector and assembling them again gives the vector (30_encoding.md R47, R48). -/
@[simp] theorem lanesOfPair_packPair (v : Lanes Half) :
    lanesOfPair (packPair v.l0 v.l1) (packPair v.l2 v.l3) = v := by
  simp [lanesOfPair]

/-- A word serialised and read back in the same order (20_memory.md R35). -/
theorem takeWord_wordToBytes (o : ByteOrder) (w : Word) (rest : List Byte) :
    takeWord o (wordToBytes o w ++ rest) = some (w, rest) := by
  cases o <;> simp [wordToBytes, takeWord, wordByte, wordOfBytes] <;>
    (ext i h; simp; interval_cases i <;> simp)

theorem decode_nop (d : Payload) : decode ⟨0x00000000#32, d⟩ = .ok .nop := by
  simp [decode, opcodeRows, OpcodeRow.hits]

theorem decode_svb (d : Payload) : decode ⟨0x00000001#32, d⟩ = .ok (.svb d.d0 d.d1) := by
  simp [decode, opcodeRows, OpcodeRow.hits]

theorem decode_wrsv (d : Payload) : decode ⟨0x00000002#32, d⟩ = .ok (.wrsv ⟨d.d0, d.d1, d.d2, d.d3⟩) := by
  simp [decode, opcodeRows, OpcodeRow.hits]

theorem decode_rdsv (d : Payload) : decode ⟨0x00000003#32, d⟩ = .ok .rdsv := by
  simp [decode, opcodeRows, OpcodeRow.hits]

theorem decode_ccb (d : Payload) : decode ⟨0x00000004#32, d⟩ = .ok (.ccb ⟨d.d0, d.d1, d.d2, d.d3⟩ d.d4) := by
  simp [decode, opcodeRows, OpcodeRow.hits]

theorem decode_wrcc (d : Payload) : decode ⟨0x00000005#32, d⟩ = .ok (.wrcc ⟨d.d0, d.d1, d.d2, d.d3⟩) := by
  simp [decode, opcodeRows, OpcodeRow.hits]

theorem decode_rdcc (d : Payload) : decode ⟨0x00000006#32, d⟩ = .ok .rdcc := by
  simp [decode, opcodeRows, OpcodeRow.hits]

theorem decode_rdstat (d : Payload) : decode ⟨0x00000009#32, d⟩ = .ok .rdstat := by
  simp [decode, opcodeRows, OpcodeRow.hits]

/-- The four `DEC` words (30_encoding.md R44). -/
theorem decode_dec (k : Fin 4) (d : Payload) :
    decode ⟨commandWord 0x7#4 k, d⟩ =
      .ok (.dec k (lanesOfPair d.d0 d.d1) (lanesOfPair d.d2 d.d3) (lanesOfPair d.d4 d.d5)) := by
  match k with
  | 0 | 1 | 2 | 3 => simp [decode, opcodeRows, OpcodeRow.hits, commandWord, vselField]; try rfl

/-- The four `RDOUT` words (30_encoding.md R44). -/
theorem decode_rdout (k : Fin 4) (d : Payload) : decode ⟨commandWord 0x8#4 k, d⟩ = .ok (.rdout k) := by
  match k with
  | 0 | 1 | 2 | 3 => simp [decode, opcodeRows, OpcodeRow.hits, commandWord, vselField]; try rfl

theorem commandWord_dec (k : Fin 4) : legal (commandWord 0x7#4 k) = true := by revert k; decide

theorem commandWord_rdout (k : Fin 4) : legal (commandWord 0x8#4 k) = true := by revert k; decide

/-- The legal words, by operation and vertex (30_encoding.md R44, R46). -/
theorem legal_cases {w : Word} (h : legal w = true) :
    w = 0x00000000#32 ∨ w = 0x00000001#32 ∨ w = 0x00000002#32 ∨ w = 0x00000003#32 ∨ w = 0x00000004#32 ∨
      w = 0x00000005#32 ∨ w = 0x00000006#32 ∨ (∃ k, w = commandWord 0x7#4 k) ∨ (∃ k, w = commandWord 0x8#4 k) ∨
      w = 0x00000009#32 := by
  have hlt : w.toNat < 64 := by
    simp [legal, reservedZero] at h
    omega
  obtain ⟨n, rfl⟩ : ∃ n : Fin 64, w = BitVec.ofNat 32 n.val := ⟨⟨w.toNat, hlt⟩, by simp⟩
  revert n
  decide

/-- The full mask keeps every bit. -/
theorem and_fullMask (w : Word) : w &&& 0xFFFFFFFF#32 = w := BitVec.and_allOnes

/-- What the mask of `DEC` and `RDOUT` drops is the `VSEL` field. -/
theorem eq_masked_or_vsel (w : Word) :
    ∃ q : Fin 4, w = (w &&& 0xFFFFFFCF#32) ||| (BitVec.ofNat 32 q.val <<< 4) := by
  refine ⟨⟨w.toNat / 16 % 4, Nat.mod_lt _ (by decide)⟩, ?_⟩
  have hq : BitVec.ofNat 32 (w.toNat / 16 % 4) = (w >>> 4) &&& 3#32 := by
    apply BitVec.eq_of_toNat_eq
    have : w.toNat >>> 4 &&& 3 = w.toNat / 16 % 4 := by
      rw [Nat.shiftRight_eq_div_pow, show (3 : Nat) = 2 ^ 2 - 1 from rfl, Nat.and_two_pow_sub_one_eq_mod]
    simp [this]
    omega
  rw [hq]
  apply BitVec.eq_of_getLsbD_eq
  intro i hi
  interval_cases i <;> simp

/-- A word that a row of the opcode map matches is legal. -/
theorem legal_of_hits {r : OpcodeRow} (hm : r ∈ opcodeRows) {w : Word} (hr : r.hits w = true) : legal w = true := by
  have hw : w &&& r.mask = r.pattern := by simpa [OpcodeRow.hits] using hr
  simp only [opcodeRows, List.mem_cons, List.not_mem_nil, or_false] at hm
  obtain ⟨q, hq⟩ := eq_masked_or_vsel w
  rcases hm with rfl | rfl | rfl | rfl | rfl | rfl | rfl | rfl | rfl | rfl <;> simp only [and_fullMask] at hw <;>
    first
    | (rw [hw]; decide)
    | (rw [hw] at hq; rw [hq]; clear hq; revert q; decide)

/-- Every word that is not legal is refused (30_encoding.md R46). -/
theorem decode_illegal {c : Command} (h : legal c.cmd = false) : ∃ e, decode c = .error e := by
  rcases hf : opcodeRows.find? (fun r => r.hits c.cmd) with _ | r
  · exact ⟨whyIllegal c.cmd, by simp [decode, hf]⟩
  · have hl := legal_of_hits (List.mem_of_find?_eq_some hf) (by simpa using List.find?_some hf)
    rw [hl] at h
    exact absurd h (by decide)

end Sys2Proof.Laws.Decode
end

