-- ==== Sys2Proof/Laws/PerInstr.lean ====
section
/-! SUPPORT. For each instruction: its encoding is a legal command word that decodes to it (30_encoding.md R44, R46, R47). -/

namespace Sys2Proof.Laws.RoundTrip

open Sys2Proof.Laws.Decode

/-- The encoding of `i` is legal and decodes to `i`. -/
def Statement (i : Instr) : Prop := legal (encode i).cmd = true ∧ decode (encode i) = .ok i

theorem legal_word (opc : BitVec 4) (h : opc.toNat ≤ 9) : legal (commandWord opc 0) = true := by
  revert opc
  decide

theorem nop : Statement .nop := ⟨legal_word 0x0#4 (by decide), decode_nop _⟩

theorem svb (c hd : Word) : Statement (.svb c hd) := ⟨legal_word 0x1#4 (by decide), decode_svb _⟩

theorem wrsv (v : Lanes Word) : Statement (.wrsv v) := ⟨legal_word 0x2#4 (by decide), decode_wrsv _⟩

theorem rdsv : Statement .rdsv := ⟨legal_word 0x3#4 (by decide), decode_rdsv _⟩

theorem ccb (o : Lanes Word) (m : Word) : Statement (.ccb o m) := ⟨legal_word 0x4#4 (by decide), decode_ccb _⟩

theorem wrcc (v : Lanes Word) : Statement (.wrcc v) := ⟨legal_word 0x5#4 (by decide), decode_wrcc _⟩

theorem rdcc : Statement .rdcc := ⟨legal_word 0x6#4 (by decide), decode_rdcc _⟩

theorem dec (k : Fin 4) (a0 a1 a2 : Lanes Half) : Statement (.dec k a0 a1 a2) :=
  ⟨commandWord_dec k, by
    rw [encode, decode_dec, lanesOfPair_packPair, lanesOfPair_packPair, lanesOfPair_packPair]⟩

theorem rdout (k : Fin 4) : Statement (.rdout k) := ⟨commandWord_rdout k, decode_rdout k _⟩

theorem rdstat : Statement .rdstat := ⟨legal_word 0x9#4 (by decide), decode_rdstat _⟩

end Sys2Proof.Laws.RoundTrip
end

