-- ==== Sys2Proof/Laws/Assembler.lean ====
section
/-! SUPPORT. What each literal of the assembler can do (30_encoding.md R53): a value in range is kept, one out of range is refused. -/

namespace Sys2Proof.Laws.Assembler

open Sys2Proof.Machine Sys2Proof.Safety

theorem toInt_ofInt32 {n : Int} (h : Int32Fits n) : (BitVec.ofInt 32 n).toInt = n := by
  rw [BitVec.toInt_ofInt, Int.bmod_def]
  have := h.1
  have := h.2
  omega

theorem int32Lit_ok {n : Int} (h : Int32Fits n) : int32Lit n = .ok (BitVec.ofInt 32 n) := if_pos h

theorem int32Lit_error {n : Int} (h : ¬ Int32Fits n) : int32Lit n = .error .int32Range := if_neg h

/-- A 16-bit operand in range. -/
theorem int16Lit_ok {l : HalfLit} (h : HalfFits l) : ∃ w, int16Lit l = .ok w ∧ HalfIs l w := by
  cases l with
  | bits w => exact ⟨w, rfl, rfl⟩
  | int n =>
    refine ⟨BitVec.ofInt 16 n, if_pos h, ?_⟩
    have h1 : -32768 ≤ n := h.1
    have h2 : n ≤ 32767 := h.2
    rw [HalfIs, BitVec.toInt_ofInt, Int.bmod_def]
    omega

/-- A 16-bit operand out of range. -/
theorem int16Lit_error {l : HalfLit} (h : ¬ HalfFits l) : int16Lit l = .error .int16Range := by
  cases l with
  | bits w => exact absurd trivial h
  | int n => exact if_neg h

/-- A brace group whose four operands are in range. -/
theorem int16Lits_ok {v : Lanes HalfLit} (h : ∀ j, HalfFits (v.get j)) :
    ∃ w, int16Lits v = .ok w ∧ ∀ j, HalfIs (v.get j) (w.get j) := by
  obtain ⟨a, ha, ha'⟩ := int16Lit_ok (h 0)
  obtain ⟨b, hb, hb'⟩ := int16Lit_ok (h 1)
  obtain ⟨c, hc, hc'⟩ := int16Lit_ok (h 2)
  obtain ⟨d, hd, hd'⟩ := int16Lit_ok (h 3)
  simp only [Lanes.get] at ha hb hc hd
  refine ⟨⟨a, b, c, d⟩, by rw [int16Lits, ha, hb, hc, hd], fun j => ?_⟩
  match j with
  | 0 => exact ha'
  | 1 => exact hb'
  | 2 => exact hc'
  | 3 => exact hd'

/-- A brace group with an operand out of range. -/
theorem int16Lits_error {v : Lanes HalfLit} {j : Fin 4} (h : ¬ HalfFits (v.get j)) : int16Lits v = .error .int16Range := by
  have he := int16Lit_error h
  rw [int16Lits]
  split
  · match j with
    | 0 | 1 | 2 | 3 => simp_all [Lanes.get]
  · rfl

/-- A vertex select in range, or none. -/
theorem vertexLit_ok {v : Option Nat} (h : vertexOf v < 4) : vertexLit v = .ok ⟨vertexOf v, h⟩ := by
  cases v with
  | none => rfl
  | some k => exact dif_pos h

/-- A vertex select out of range. -/
theorem vertexLit_error {v : Option Nat} (h : ¬ vertexOf v < 4) : vertexLit v = .error .vertexRange := by
  cases v with
  | none => exact absurd (by decide) h
  | some k => exact dif_neg h

end Sys2Proof.Laws.Assembler
end

