-- ==== Sys2Proof/Laws/Float.lean ====
section
/-! SUPPORT. Binary32 patterns and the rounding function: the fields of a packed pattern, the magnitude of its lower 31 bits, and that
`roundMag` gives the nearest magnitude (00_scope.md R7). -/

namespace Sys2Proof.Laws.Float

open Sys2Proof.Machine

theorem signBit_eq (x : Word) : signBit x = decide (2 ^ 31 ≤ x.toNat) := by
  have := x.isLt
  rw [signBit, BitVec.getLsbD, Nat.testBit_eq_decide_div_mod_eq, Bool.eq_iff_iff]
  simp
  omega

theorem expField_eq (x : Word) : expField x = x.toNat / 2 ^ 23 % 2 ^ 8 := by
  simp [expField, Nat.shiftRight_eq_div_pow]

theorem fracField_eq (x : Word) : fracField x = x.toNat % 2 ^ 23 := by
  simp [fracField]

theorem toNat_packSign (neg : Bool) {m : Nat} (h : m < 2 ^ 31) :
    (packSign neg m).toNat = (if neg then 2 ^ 31 else 0) + m := by
  rw [packSign, BitVec.toNat_ofNat]
  apply Nat.mod_eq_of_lt
  cases neg <;> simp <;> omega

theorem signBit_packSign (neg : Bool) {m : Nat} (h : m < 2 ^ 31) : signBit (packSign neg m) = neg := by
  rw [signBit_eq, toNat_packSign neg h]
  cases neg
  · simp; omega
  · simp

theorem expField_packSign (neg : Bool) {m : Nat} (h : m < 2 ^ 31) : expField (packSign neg m) = m / 2 ^ 23 := by
  rw [expField_eq, toNat_packSign neg h]
  cases neg <;> (simp; omega)

theorem fracField_packSign (neg : Bool) {m : Nat} (h : m < 2 ^ 31) : fracField (packSign neg m) = m % 2 ^ 23 := by
  rw [fracField_eq, toNat_packSign neg h]
  cases neg
  · simp
  · simp; omega

/-- Every pattern is its sign and its lower 31 bits. -/
theorem eq_packSign (x : Word) : x = packSign (signBit x) (x.toNat % 2 ^ 31) := by
  have := x.isLt
  apply BitVec.eq_of_toNat_eq
  rw [toNat_packSign _ (Nat.mod_lt _ (by norm_num)), signBit_eq]
  simp
  split <;> omega

/-- The magnitude, in units, that the lower 31 bits `p` of a finite pattern stand for. -/
def magOf (p : Nat) : Nat := if p / 2 ^ 23 = 0 then p % 2 ^ 23 else (2 ^ 23 + p % 2 ^ 23) * 2 ^ (p / 2 ^ 23 - 1)

theorem magUnits_packSign (neg : Bool) {m : Nat} (h : m < 2 ^ 31) : magUnits (packSign neg m) = magOf m := by
  rw [magUnits, expField_packSign neg h, fracField_packSign neg h, magOf]

theorem magUnits_eq (x : Word) : magUnits x = magOf (x.toNat % 2 ^ 31) := by
  conv_lhs => rw [eq_packSign x]
  exact magUnits_packSign _ (Nat.mod_lt _ (by norm_num))

theorem isFinite_iff (x : Word) : isFinite x = true ↔ x.toNat % 2 ^ 31 < infBits := by
  have := x.isLt
  rw [isFinite, expField_eq, infBits]
  simp
  omega

theorem isFinite_packSign (neg : Bool) {m : Nat} (h : m < infBits) : isFinite (packSign neg m) = true := by
  have h31 : m < 2 ^ 31 := by rw [infBits] at h; omega
  rw [isFinite, expField_packSign neg h31]
  rw [infBits] at h
  simp
  omega

theorem isInf_packSign (neg : Bool) : isInf (packSign neg infBits) = true := by cases neg <;> decide

theorem isNaN_iff (x : Word) : isNaN x = true ↔ infBits < x.toNat % 2 ^ 31 := by
  have := x.isLt
  rw [isNaN, expField_eq, fracField_eq, infBits]
  simp
  omega

theorem isInf_iff (x : Word) : isInf x = true ↔ x.toNat % 2 ^ 31 = infBits := by
  have := x.isLt
  rw [isInf, expField_eq, fracField_eq, infBits]
  simp
  omega

theorem isZero_iff (x : Word) : isZero x = true ↔ x.toNat % 2 ^ 31 = 0 := by
  have := x.isLt
  rw [isZero, expField_eq, fracField_eq]
  simp
  omega

/-- The three kinds of pattern. -/
theorem isFinite_iff_not (x : Word) : isFinite x = true ↔ isNaN x = false ∧ isInf x = false := by
  rw [← Bool.not_eq_true, ← Bool.not_eq_true, isFinite_iff, isNaN_iff, isInf_iff]
  omega

/-- A NaN pattern is a NaN (60_exceptions.md R85). -/
theorem isNaN_nanPattern (neg : Bool) (f : Fin 8388607) : isNaN (nanPattern neg f) = true := by
  have hf := f.isLt
  have h31 : infBits + (f.val + 1) < 2 ^ 31 := by rw [infBits]; omega
  rw [isNaN_iff, nanPattern, toNat_packSign neg h31]
  cases neg <;> simp only [infBits] at * <;> simp <;> omega

theorem isNaN_drawnNaN (n : Nat) : isNaN (drawnNaN n) = true := isNaN_nanPattern _ _

/-- A significand `q` with a last place of `2 ^ s` units, as `roundMag` packs it, has the magnitude `q * 2 ^ s`. -/
theorem magOf_pack {s q : Nat} (hq : q ≤ 2 ^ 24) (hs : s = 0 ∨ 2 ^ 23 ≤ q) : magOf (s * 2 ^ 23 + q) = q * 2 ^ s := by
  rw [magOf]
  rcases Nat.lt_or_ge q (2 ^ 23) with h1 | h1
  · obtain rfl : s = 0 := by omega
    have : (0 * 2 ^ 23 + q) / 2 ^ 23 = 0 := by omega
    rw [if_pos this]
    omega
  · rcases Nat.lt_or_ge q (2 ^ 24) with h2 | h2
    · have hd : (s * 2 ^ 23 + q) / 2 ^ 23 = s + 1 := by omega
      have hm : (s * 2 ^ 23 + q) % 2 ^ 23 = q - 2 ^ 23 := by omega
      have he : 2 ^ 23 + (q - 2 ^ 23) = q := by omega
      rw [hd, hm, if_neg (by omega), show s + 1 - 1 = s by omega, he]
    · have hd : (s * 2 ^ 23 + q) / 2 ^ 23 = s + 2 := by omega
      have hm : (s * 2 ^ 23 + q) % 2 ^ 23 = 0 := by omega
      have hq24 : q = 2 ^ 23 * 2 := by omega
      have hp : 2 ^ (s + 1) = 2 * 2 ^ s := by rw [Nat.pow_succ, Nat.mul_comm]
      rw [hd, hm, if_neg (by omega), show s + 2 - 1 = s + 1 by omega, hp, hq24, Nat.add_zero, Nat.mul_assoc]

/-- Every magnitude is of that form. -/
theorem exists_pack (p : Nat) :
    ∃ s q, p = s * 2 ^ 23 + q ∧ q < 2 ^ 24 ∧ (s = 0 ∨ 2 ^ 23 ≤ q) := by
  rcases Nat.lt_or_ge p (2 ^ 23) with h | h
  · exact ⟨0, p, by omega, by omega, .inl rfl⟩
  · exact ⟨p / 2 ^ 23 - 1, 2 ^ 23 + p % 2 ^ 23, by omega, by omega, .inr (by omega)⟩

/-- The nearest whole number: at most half a divisor away, and even at exactly half. -/
theorem roundHalfEven_spec (n : Nat) {d : Nat} (hd : 0 < d) :
    2 * n ≤ 2 * (roundHalfEven n d * d) + d ∧ 2 * (roundHalfEven n d * d) ≤ 2 * n + d ∧
      (2 * n = 2 * (roundHalfEven n d * d) + d ∨ 2 * (roundHalfEven n d * d) = 2 * n + d →
        roundHalfEven n d % 2 = 0) := by
  have h1 := Nat.div_add_mod n d
  have h2 := Nat.mod_lt n hd
  rw [Nat.mul_comm] at h1
  unfold roundHalfEven
  generalize n / d = q at *
  generalize n % d = r at *
  split
  · rename_i h
    rw [Nat.add_mul, Nat.one_mul]
    refine ⟨by omega, by omega, ?_⟩
    rintro (h' | h')
    · omega
    · have : q % 2 = 1 := by omega
      omega
  · rename_i h
    refine ⟨by omega, by omega, ?_⟩
    rintro (h' | h')
    · by_contra hq
      exact h (.inr ⟨by omega, by omega⟩)
    · omega

/-- The whole part has 24 bits above its last place, when it has more than 24. -/
theorem ulpShift_spec (m : Nat) :
    m < 2 ^ (24 + ulpShift m) ∧ (ulpShift m = 0 ∨ 2 ^ (23 + ulpShift m) ≤ m) := by
  unfold ulpShift
  rcases Nat.eq_zero_or_pos m with rfl | hm
  · simp
  · have h1 := Nat.lt_log2_self (n := m)
    have h2 := Nat.log2_self_le (n := m) (by omega)
    rcases Nat.lt_or_ge m.log2 23 with h | h
    · refine ⟨lt_of_lt_of_le h1 (Nat.pow_le_pow_right (by norm_num) (by omega)), .inl (by omega)⟩
    · refine ⟨by rwa [show 24 + (m.log2 - 23) = m.log2 + 1 by omega], ?_⟩
      right
      rwa [show 23 + (m.log2 - 23) = m.log2 by omega]

/-- The significand and last place that `roundMag` finds. -/
structure Rounding (n d : Nat) where
  s : Nat
  q : Nat
  near_above : 2 * n ≤ (2 * q + 1) * (2 ^ s * d)
  near_below : 2 * q * (2 ^ s * d) ≤ 2 * n + 2 ^ s * d
  tie : 2 * n = (2 * q + 1) * (2 ^ s * d) ∨ 2 * q * (2 ^ s * d) = 2 * n + 2 ^ s * d → q % 2 = 0
  q_le : q ≤ 2 ^ 24
  q_ge : s = 0 ∨ 2 ^ 23 ≤ q
  n_ge : s = 0 ∨ 2 ^ (23 + s) * d ≤ n
  bits : roundMag n d = min infBits (s * 2 ^ 23 + q)

theorem rounding_exists (n : Nat) {d : Nat} (hd : 0 < d) : Nonempty (Rounding n d) := by
  obtain ⟨hlt, hge⟩ := ulpShift_spec (n / d)
  set s := ulpShift (n / d) with hs
  have hD : 0 < d * 2 ^ s := by positivity
  obtain ⟨h1, h2, h3⟩ := roundHalfEven_spec n hD
  set q := roundHalfEven n (d * 2 ^ s) with hq
  have hnlt : n < 2 ^ (24 + s) * d := by
    rwa [Nat.div_lt_iff_lt_mul hd] at hlt
  have hnge : s = 0 ∨ 2 ^ (23 + s) * d ≤ n := hge.imp id fun h => (Nat.le_div_iff_mul_le hd).1 h
  have e24 : 2 ^ (24 + s) * d = 2 ^ 24 * (d * 2 ^ s) := by rw [pow_add]; ring
  have e23 : 2 ^ (23 + s) * d = 2 ^ 23 * (d * 2 ^ s) := by rw [pow_add]; ring
  have hqle : q ≤ 2 ^ 24 := by
    by_contra hc
    have : (2 ^ 24 + 1) * (d * 2 ^ s) ≤ q * (d * 2 ^ s) := Nat.mul_le_mul_right _ (by omega)
    rw [Nat.add_mul] at this
    omega
  have hqge : s = 0 ∨ 2 ^ 23 ≤ q := by
    rcases hnge with h | h
    · exact .inl h
    · right
      by_contra hc
      have : q * (d * 2 ^ s) ≤ (2 ^ 23 - 1) * (d * 2 ^ s) := Nat.mul_le_mul_right _ (by omega)
      have e : (2 ^ 23 - 1) * (d * 2 ^ s) + (d * 2 ^ s) = 2 ^ 23 * (d * 2 ^ s) := by ring
      omega
  refine ⟨⟨s, q, ?_, ?_, ?_, hqle, hqge, hnge, ?_⟩⟩
  · have : (2 * q + 1) * (2 ^ s * d) = 2 * (q * (d * 2 ^ s)) + d * 2 ^ s := by ring
    omega
  · have e1 : 2 * q * (2 ^ s * d) = 2 * (q * (d * 2 ^ s)) := by ring
    have e2 : 2 ^ s * d = d * 2 ^ s := by ring
    omega
  · intro h
    apply h3
    have e0 : (2 * q + 1) * (2 ^ s * d) = 2 * (q * (d * 2 ^ s)) + d * 2 ^ s := by ring
    have e1 : 2 * q * (2 ^ s * d) = 2 * (q * (d * 2 ^ s)) := by ring
    have e2 : 2 ^ s * d = d * 2 ^ s := by ring
    omega
  · rw [roundMag, Nat.mul_comm (2 ^ 23)]

theorem roundMag_lt (n d : Nat) : roundMag n d < 2 ^ 31 :=
  lt_of_le_of_lt (min_le_left _ _) (by rw [infBits]; norm_num)

theorem signBit_round32 (neg : Bool) (n d : Nat) : signBit (round32 neg n d) = neg :=
  signBit_packSign neg (roundMag_lt n d)

/-- `fmul32` of finite values (00_scope.md R7). -/
theorem fmul32_finite (nan : Word) {a b : Word} (ha : isFinite a = true) (hb : isFinite b = true) :
    fmul32 nan a b = round32 (signBit a ^^ signBit b) (magUnits a * magUnits b) (2 ^ 149) := by
  rw [isFinite_iff_not] at ha hb
  simp [fmul32, ha, hb]

/-- `fadd32` of finite values (00_scope.md R7). -/
theorem fadd32_finite (nan : Word) {a b : Word} (ha : isFinite a = true) (hb : isFinite b = true) :
    fadd32 nan a b = round32 (sumSign a b) (units a + units b).natAbs 1 := by
  rw [isFinite_iff_not] at ha hb
  simp [fadd32, ha, hb]

/-- A magnitude that a pattern has is rounded to that pattern. -/
theorem roundMag_magOf {p : Nat} (h : p < infBits) : roundMag (magOf p) 1 = p := by
  obtain ⟨s, q, hp, hq, hs⟩ := exists_pack p
  have hm : magOf p = q * 2 ^ s := by rw [hp]; exact magOf_pack hq.le hs
  have hpos : 0 < 2 ^ s := by positivity
  have hsh : ulpShift (magOf p) = s := by
    rw [hm, ulpShift]
    rcases hs with rfl | hs
    · rcases Nat.eq_zero_or_pos q with rfl | h0
      · simp
      · have : (q * 2 ^ 0).log2 < 24 := by rw [Nat.log2_lt (by omega)]; omega
        omega
    · have : (q * 2 ^ s).log2 = 23 + s := by
        rw [Nat.log2_eq_iff (by positivity)]
        constructor
        · rw [pow_add]
          exact Nat.mul_le_mul_right _ hs
        · rw [show 23 + s + 1 = 24 + s by omega, pow_add]
          exact Nat.mul_lt_mul_of_pos_right hq hpos
      omega
  have hround : roundHalfEven (magOf p) (1 * 2 ^ s) = q := by
    rw [hm, one_mul, roundHalfEven, Nat.mul_mod_left, Nat.mul_div_cancel _ hpos, if_neg]
    rintro (h | ⟨h, -⟩) <;> omega
  rw [roundMag, Nat.div_one, hsh]
  show min infBits (2 ^ 23 * s + roundHalfEven (magOf p) (1 * 2 ^ s)) = p
  rw [hround, Nat.mul_comm (2 ^ 23), ← hp]
  exact min_eq_right h.le

/-- A finite value rounds to its own pattern. -/
theorem round32_self {x : Word} (h : isFinite x = true) : round32 (signBit x) (magUnits x) 1 = x := by
  conv_rhs => rw [eq_packSign x]
  rw [round32, magUnits_eq, roundMag_magOf ((isFinite_iff x).1 h)]

end Sys2Proof.Laws.Float
end

