-- ==== Sys2Proof/Laws/State.lean ====
section
/-! SUPPORT. For each state update of `Machine/Ops.lean` and `Machine/Present.lean`, what each field holds after it. -/

namespace Sys2Proof.Laws.State

open Sys2Proof.Machine

@[simp] theorem writeSv_sv (v : Lanes Word) (s : State) : (writeSv v s).sv = v := rfl

@[simp] theorem writeSv_cc (v : Lanes Word) (s : State) : (writeSv v s).cc = s.cc := rfl

@[simp] theorem writeSv_out (v : Lanes Word) (s : State) : (writeSv v s).out = s.out := rfl

@[simp] theorem writeSv_stat (v : Lanes Word) (s : State) : (writeSv v s).stat = statSet s.stat .svv := rfl

@[simp] theorem writeSv_phase (v : Lanes Word) (s : State) : (writeSv v s).phase = s.phase := rfl

@[simp] theorem writeSv_inbox (v : Lanes Word) (s : State) : (writeSv v s).inbox = s.inbox := rfl

@[simp] theorem writeSv_port (v : Lanes Word) (s : State) : (writeSv v s).port = s.port := rfl

@[simp] theorem writeSv_draws (v : Lanes Word) (s : State) : (writeSv v s).draws = s.draws := rfl

@[simp] theorem writeCc_sv (v : Lanes Word) (s : State) : (writeCc v s).sv = s.sv := rfl

@[simp] theorem writeCc_cc (v : Lanes Word) (s : State) : (writeCc v s).cc = v := rfl

@[simp] theorem writeCc_out (v : Lanes Word) (s : State) : (writeCc v s).out = s.out := rfl

@[simp] theorem writeCc_stat (v : Lanes Word) (s : State) : (writeCc v s).stat = statSet s.stat .ccv := rfl

@[simp] theorem writeCc_phase (v : Lanes Word) (s : State) : (writeCc v s).phase = s.phase := rfl

@[simp] theorem writeCc_inbox (v : Lanes Word) (s : State) : (writeCc v s).inbox = s.inbox := rfl

@[simp] theorem writeCc_port (v : Lanes Word) (s : State) : (writeCc v s).port = s.port := rfl

@[simp] theorem writeCc_draws (v : Lanes Word) (s : State) : (writeCc v s).draws = s.draws := rfl

@[simp] theorem writeOut_sv (v : Lanes (Lanes Word)) (s : State) : (writeOut v s).sv = s.sv := rfl

@[simp] theorem writeOut_cc (v : Lanes (Lanes Word)) (s : State) : (writeOut v s).cc = s.cc := rfl

@[simp] theorem writeOut_out (v : Lanes (Lanes Word)) (s : State) : (writeOut v s).out = v := rfl

@[simp] theorem writeOut_stat (v : Lanes (Lanes Word)) (s : State) : (writeOut v s).stat = statSet s.stat .outv := rfl

@[simp] theorem writeOut_phase (v : Lanes (Lanes Word)) (s : State) : (writeOut v s).phase = s.phase := rfl

@[simp] theorem writeOut_inbox (v : Lanes (Lanes Word)) (s : State) : (writeOut v s).inbox = s.inbox := rfl

@[simp] theorem writeOut_port (v : Lanes (Lanes Word)) (s : State) : (writeOut v s).port = s.port := rfl

@[simp] theorem writeOut_draws (v : Lanes (Lanes Word)) (s : State) : (writeOut v s).draws = s.draws := rfl

@[simp] theorem setStat_sv (b : StatBit) (s : State) : (setStat b s).sv = s.sv := rfl

@[simp] theorem setStat_cc (b : StatBit) (s : State) : (setStat b s).cc = s.cc := rfl

@[simp] theorem setStat_out (b : StatBit) (s : State) : (setStat b s).out = s.out := rfl

@[simp] theorem setStat_stat (b : StatBit) (s : State) : (setStat b s).stat = statSet s.stat b := rfl

@[simp] theorem setStat_phase (b : StatBit) (s : State) : (setStat b s).phase = s.phase := rfl

@[simp] theorem setStat_inbox (b : StatBit) (s : State) : (setStat b s).inbox = s.inbox := rfl

@[simp] theorem setStat_port (b : StatBit) (s : State) : (setStat b s).port = s.port := rfl

@[simp] theorem setStat_draws (b : StatBit) (s : State) : (setStat b s).draws = s.draws := rfl

@[simp] theorem advanceDraws_sv (n : Nat) (s : State) : (advanceDraws n s).sv = s.sv := rfl

@[simp] theorem advanceDraws_cc (n : Nat) (s : State) : (advanceDraws n s).cc = s.cc := rfl

@[simp] theorem advanceDraws_out (n : Nat) (s : State) : (advanceDraws n s).out = s.out := rfl

@[simp] theorem advanceDraws_stat (n : Nat) (s : State) : (advanceDraws n s).stat = s.stat := rfl

@[simp] theorem advanceDraws_phase (n : Nat) (s : State) : (advanceDraws n s).phase = s.phase := rfl

@[simp] theorem advanceDraws_inbox (n : Nat) (s : State) : (advanceDraws n s).inbox = s.inbox := rfl

@[simp] theorem advanceDraws_port (n : Nat) (s : State) : (advanceDraws n s).port = s.port := rfl

@[simp] theorem advanceDraws_draws (n : Nat) (s : State) : (advanceDraws n s).draws = s.draws + n := rfl

@[simp] theorem respond_sv (rc : RespCode) (r : Lanes Word) (s : State) : (respond rc r s).sv = s.sv := rfl

@[simp] theorem respond_cc (rc : RespCode) (r : Lanes Word) (s : State) : (respond rc r s).cc = s.cc := rfl

@[simp] theorem respond_out (rc : RespCode) (r : Lanes Word) (s : State) : (respond rc r s).out = s.out := rfl

@[simp] theorem respond_stat (rc : RespCode) (r : Lanes Word) (s : State) : (respond rc r s).stat = s.stat := rfl

@[simp] theorem respond_phase (rc : RespCode) (r : Lanes Word) (s : State) : (respond rc r s).phase = s.phase := rfl

@[simp] theorem respond_inbox (rc : RespCode) (r : Lanes Word) (s : State) : (respond rc r s).inbox = s.inbox := rfl

@[simp] theorem respond_port (rc : RespCode) (r : Lanes Word) (s : State) : (respond rc r s).port = .answered ⟨rc, r⟩ := rfl

@[simp] theorem respond_draws (rc : RespCode) (r : Lanes Word) (s : State) : (respond rc r s).draws = s.draws := rfl

@[simp] theorem idle_sv (s : State) : (idle s).sv = s.sv := rfl

@[simp] theorem idle_cc (s : State) : (idle s).cc = s.cc := rfl

@[simp] theorem idle_out (s : State) : (idle s).out = s.out := rfl

@[simp] theorem idle_stat (s : State) : (idle s).stat = s.stat := rfl

@[simp] theorem idle_phase (s : State) : (idle s).phase = s.phase := rfl

@[simp] theorem idle_inbox (s : State) : (idle s).inbox = s.inbox := rfl

@[simp] theorem idle_port (s : State) : (idle s).port = .silent := rfl

@[simp] theorem idle_draws (s : State) : (idle s).draws = s.draws := rfl

@[simp] theorem loseResponse_sv (s : State) : (loseResponse s).sv = s.sv := rfl

@[simp] theorem loseResponse_cc (s : State) : (loseResponse s).cc = s.cc := rfl

@[simp] theorem loseResponse_out (s : State) : (loseResponse s).out = s.out := rfl

@[simp] theorem loseResponse_stat (s : State) : (loseResponse s).stat = s.stat := rfl

@[simp] theorem loseResponse_phase (s : State) : (loseResponse s).phase = s.phase := rfl

@[simp] theorem loseResponse_inbox (s : State) : (loseResponse s).inbox = s.inbox := rfl

@[simp] theorem loseResponse_port (s : State) : (loseResponse s).port = .lost := rfl

@[simp] theorem loseResponse_draws (s : State) : (loseResponse s).draws = s.draws := rfl

@[simp] theorem takeEvent_sv (rest : List HostEvent) (s : State) : (takeEvent rest s).sv = s.sv := rfl

@[simp] theorem takeEvent_cc (rest : List HostEvent) (s : State) : (takeEvent rest s).cc = s.cc := rfl

@[simp] theorem takeEvent_out (rest : List HostEvent) (s : State) : (takeEvent rest s).out = s.out := rfl

@[simp] theorem takeEvent_stat (rest : List HostEvent) (s : State) : (takeEvent rest s).stat = s.stat := rfl

@[simp] theorem takeEvent_phase (rest : List HostEvent) (s : State) : (takeEvent rest s).phase = s.phase := rfl

@[simp] theorem takeEvent_inbox (rest : List HostEvent) (s : State) : (takeEvent rest s).inbox = rest := rfl

@[simp] theorem takeEvent_port (rest : List HostEvent) (s : State) : (takeEvent rest s).port = s.port := rfl

@[simp] theorem takeEvent_draws (rest : List HostEvent) (s : State) : (takeEvent rest s).draws = s.draws := rfl

@[simp] theorem applyReset_sv (s : State) : (applyReset s).sv = Lanes.fill 0#32 := rfl

@[simp] theorem applyReset_cc (s : State) : (applyReset s).cc = Lanes.fill 0#32 := rfl

@[simp] theorem applyReset_out (s : State) : (applyReset s).out = Lanes.fill (Lanes.fill 0#32) := rfl

@[simp] theorem applyReset_stat (s : State) : (applyReset s).stat = 0#32 := rfl

@[simp] theorem applyReset_phase (s : State) : (applyReset s).phase = .operational := rfl

@[simp] theorem applyReset_inbox (s : State) : (applyReset s).inbox = s.inbox := rfl

@[simp] theorem applyReset_port (s : State) : (applyReset s).port = .silent := rfl

@[simp] theorem applyReset_draws (s : State) : (applyReset s).draws = s.draws := rfl

@[simp] theorem powerUp_phase (s : State) : (powerUp s).phase = .unreset := rfl

@[simp] theorem powerUp_inbox (s : State) : (powerUp s).inbox = s.inbox := rfl

@[simp] theorem powerUp_port (s : State) : (powerUp s).port = .silent := rfl

@[simp] theorem powerUp_draws (s : State) : (powerUp s).draws = s.draws + 25 := rfl

end Sys2Proof.Laws.State
end

