-- ==== Sys2Proof/Laws/Ops.lean ====
section
/-! SUPPORT. What each shared operation can do, said once: the STAT bits, `fail`, what an instruction leaves alone and drives, and
the cases of a step. Proofs about a step cite these and do not unfold the meanings. -/

namespace Sys2Proof.Laws.Ops

open Sys2Proof.Machine Sys2Proof.Laws.State

/-- Setting a field sets its bit and no other (10_state.md R19). -/
theorem getLsbD_statSet (w : Word) (b : StatBit) (i : Nat) :
    (statSet w b).getLsbD i = (w.getLsbD i || decide (i = statPos b)) := by
  have hp : statPos b < 32 := by cases b <;> decide
  by_cases hi : i < 32
  · simp only [statSet, BitVec.getLsbD_or, BitVec.getLsbD_shiftLeft, BitVec.getLsbD_one, hi]
    congr 1
    rw [Bool.eq_iff_iff]
    simp
    omega
  · have : i ≠ statPos b := by omega
    simp [this, BitVec.getLsbD_of_ge _ i (by omega : 32 ≤ i)]

/-- The same, as when a bit is 1. -/
theorem statSet_bit_iff (w : Word) (b : StatBit) (i : Nat) :
    (statSet w b).getLsbD i = true ↔ w.getLsbD i = true ∨ i = statPos b := by
  rw [getLsbD_statSet, Bool.or_eq_true, decide_eq_true_iff]

/-- Every other bit is as it was. -/
theorem statSet_other (w : Word) (b : StatBit) {i : Nat} (h : i ≠ statPos b) : (statSet w b).getLsbD i = w.getLsbD i := by
  rw [getLsbD_statSet, decide_eq_false h, Bool.or_false]

@[simp] theorem fail_ill_eq (s : State) : fail .ill s = respond .ill (Lanes.fill 0#32) (setStat .ill s) := rfl

@[simp] theorem fail_uninit_eq (s : State) :
    fail .uninit s = respond .uninit (Lanes.fill 0#32) (setStat .uninit s) := rfl

@[simp] theorem respondOk_eq (s : State) : respondOk s = respond .ok (Lanes.fill 0#32) s := rfl

@[simp] theorem get_ofFn {α : Type} (f : Fin 4 → α) (k : Fin 4) : (Lanes.ofFn f).get k = f k := by
  match k with
  | 0 | 1 | 2 | 3 => rfl

/-- Every draw of a NaN is a NaN (60_exceptions.md R85). -/
theorem isNaN_nanDraw (s : State) (i : Nat) : isNaN (nanDraw s i) = true := Float.isNaN_drawnNaN _

/-- One of four free words (60_exceptions.md R93). -/
@[simp] theorem get_powerUpLanes (n : Nat) (j : Fin 4) : (powerUpLanes n).get j = Config.powerUpWord (n + j.val) := get_ofFn _ j

/-- One lane of `vdecode` (42_position_decode.md R70). -/
theorem vdecode_lane (nan : Nat → Word) (a0 a1 a2 : Lanes Half) (s c : Lanes Word) (k j : Fin 4) :
    ((vdecode nan a0 a1 a2 s c).get k).get j =
      decodeLane (nan (8 * k.val + 2 * j.val)) (nan (8 * k.val + 2 * j.val + 1))
        (((transpose (sextLanes a0) (sextLanes a1) (sextLanes a2)).get k).get j) (s.get j) (c.get j) := by
  rw [vdecode]
  simp only [get_ofFn]

theorem sint_sext32 (h : Half) : sint (sext32 h) = h.toInt := BitVec.toInt_signExtend_of_le (by decide)

/-- Vertex `k` of the transposed, sign-extended lanes (42_position_decode.md R65, R66). -/
theorem transpose_sextLanes (a0 a1 a2 : Lanes Half) (k : Fin 4) :
    (transpose (sextLanes a0) (sextLanes a1) (sextLanes a2)).get k =
      ⟨(a0.get k).toInt, (a1.get k).toInt, (a2.get k).toInt, 0⟩ := by
  simp only [transpose, sextLanes, get_ofFn, sint_sext32]

/-! The outcome of each register-reading command, by its valid bit (60_exceptions.md R80). -/

theorem exec_rdsv_ok {s : State} (h : s.stat.getLsbD 0 = true) : exec .rdsv s = .next (respond .ok s.sv s) :=
  congrArg Host.Outcome.next (if_pos h)

theorem exec_rdsv_uninit {s : State} (h : s.stat.getLsbD 0 = false) : exec .rdsv s = .next (fail .uninit s) :=
  congrArg Host.Outcome.next (if_neg (Bool.eq_false_iff.1 h))

theorem exec_rdcc_ok {s : State} (h : s.stat.getLsbD 1 = true) : exec .rdcc s = .next (respond .ok s.cc s) :=
  congrArg Host.Outcome.next (if_pos h)

theorem exec_rdcc_uninit {s : State} (h : s.stat.getLsbD 1 = false) : exec .rdcc s = .next (fail .uninit s) :=
  congrArg Host.Outcome.next (if_neg (Bool.eq_false_iff.1 h))

theorem exec_rdout_ok (k : Fin 4) {s : State} (h : s.stat.getLsbD 2 = true) :
    exec (.rdout k) s = .next (respond .ok (s.out.get k) s) :=
  congrArg Host.Outcome.next (if_pos h)

theorem exec_rdout_uninit (k : Fin 4) {s : State} (h : s.stat.getLsbD 2 = false) :
    exec (.rdout k) s = .next (fail .uninit s) :=
  congrArg Host.Outcome.next (if_neg (Bool.eq_false_iff.1 h))

theorem exec_dec_ok (k : Fin 4) (a0 a1 a2 : Lanes Half) {s : State} (h0 : s.stat.getLsbD 0 = true)
    (h1 : s.stat.getLsbD 1 = true) : exec (.dec k a0 a1 a2) s = .next (decodeAndRespond k a0 a1 a2 s) :=
  congrArg Host.Outcome.next (if_pos (Bool.and_eq_true_iff.2 ⟨h0, h1⟩))

theorem exec_dec_uninit (k : Fin 4) (a0 a1 a2 : Lanes Half) {s : State}
    (h : s.stat.getLsbD 0 = false ∨ s.stat.getLsbD 1 = false) : exec (.dec k a0 a1 a2) s = .next (fail .uninit s) :=
  congrArg Host.Outcome.next (if_neg (Bool.eq_false_iff.1 (Bool.and_eq_false_iff.2 h)))

/-- What a scaling command leaves (40_scale_vector.md R55), said of any vector so that no arithmetic is unfolded. -/
theorem next_writeSv (n : Nat) (v : Lanes Word) (s : State) :
    ∃ t, respondOk (advanceDraws n (writeSv v s)) = t ∧ t.sv = v ∧ t.stat = statSet s.stat .svv ∧
      t.port = .answered ⟨.ok, ⟨0#32, 0#32, 0#32, 0#32⟩⟩ ∧ t.cc = s.cc ∧ t.out = s.out ∧ t.phase = s.phase ∧ t.inbox = s.inbox :=
  ⟨_, rfl, rfl, rfl, rfl, rfl, rfl, rfl, rfl⟩

/-- `SVB`'s next state, field by field (40_scale_vector.md R55). -/
theorem exec_svb (c hd : Word) (s : State) :
    ∃ t, exec (.svb c hd) s = .next t ∧ t.sv = scaleVector Config.svbArith (nanDraw s 0) (nanDraw s 1) c hd ∧
      t.stat = statSet s.stat .svv ∧ t.port = .answered ⟨.ok, ⟨0#32, 0#32, 0#32, 0#32⟩⟩ ∧ t.cc = s.cc ∧ t.out = s.out ∧
      t.phase = s.phase ∧ t.inbox = s.inbox := by
  obtain ⟨t, ht, h⟩ := next_writeSv 2 (scaleVector Config.svbArith (nanDraw s 0) (nanDraw s 1) c hd) s
  exact ⟨t, congrArg Host.Outcome.next ht, h⟩

theorem scaleVector_l0 (a : SvbArith) (n m c hd : Word) : (scaleVector a n m c hd).l0 = qscale a n c := by rw [scaleVector]

theorem scaleVector_l1 (a : SvbArith) (n m c hd : Word) :
    (scaleVector a n m c hd).l1 = qscale a m (cvtI32F32 hd.toInt) := by rw [scaleVector, sint]

theorem scaleVector_l2 (a : SvbArith) (n m c hd : Word) : (scaleVector a n m c hd).l2 = (scaleVector a n m c hd).l0 := by
  rw [scaleVector]

theorem scaleVector_l3 (a : SvbArith) (n m c hd : Word) : (scaleVector a n m c hd).l3 = 0#32 := by rw [scaleVector]

/-- `CCB`'s next state (41_cell_coords.md R62). -/
theorem exec_ccb (o : Lanes Word) (m : Word) (s : State) :
    exec (.ccb o m) s = .next { s with
      cc := cellCoords Config.ccPerm o (cvtI32F32 m.toInt), stat := statSet s.stat .ccv,
      port := .answered ⟨.ok, ⟨0#32, 0#32, 0#32, 0#32⟩⟩ } := rfl

/-- Lane 1 of CellCoords under every choice (41_cell_coords.md R61). -/
@[simp] theorem cellCoords_l1 (p : CcPerm) (o : Lanes Word) (m : Word) : (cellCoords p o m).l1 = m := by cases p <;> rfl

/-- Lane 2 of CellCoords under every choice (41_cell_coords.md R61). -/
@[simp] theorem cellCoords_l2 (p : CcPerm) (o : Lanes Word) (m : Word) : (cellCoords p o m).l2 = o.l2 := by cases p <;> rfl

/-- Lanes 0 and 3 of CellCoords, by the choice (41_cell_coords.md R61). -/
theorem cellCoords_cases (p : CcPerm) (o : Lanes Word) (m : Word) :
    p = .oxHtOzOz ∧ (cellCoords p o m).l0 = o.l0 ∧ (cellCoords p o m).l3 = o.l2 ∨
      p = .ozHtOzOz ∧ (cellCoords p o m).l0 = o.l2 ∧ (cellCoords p o m).l3 = o.l2 ∨
      p = .oxHtOzOw ∧ (cellCoords p o m).l0 = o.l0 ∧ (cellCoords p o m).l3 = o.l3 := by
  cases p
  · exact .inl ⟨rfl, rfl, rfl⟩
  · exact .inr (.inl ⟨rfl, rfl, rfl⟩)
  · exact .inr (.inr ⟨rfl, rfl, rfl⟩)

/-- What a decoding command leaves (42_position_decode.md R71), said of any four vertices. -/
theorem next_writeOut (k : Fin 4) (p : Lanes (Lanes Word)) (s : State) :
    ∃ t, respond .ok (p.get k) (advanceDraws 32 (writeOut p s)) = t ∧ t.out = p ∧ t.stat = statSet s.stat .outv ∧
      t.port = .answered ⟨.ok, t.out.get k⟩ ∧ t.sv = s.sv ∧ t.cc = s.cc ∧ t.phase = s.phase ∧ t.inbox = s.inbox :=
  ⟨_, rfl, rfl, rfl, rfl, rfl, rfl, rfl, rfl⟩

/-- A successful `DEC`'s next state, field by field (42_position_decode.md R71). -/
theorem exec_dec (k : Fin 4) (a0 a1 a2 : Lanes Half) {s : State} (h0 : s.stat.getLsbD 0 = true)
    (h1 : s.stat.getLsbD 1 = true) :
    ∃ t, exec (.dec k a0 a1 a2) s = .next t ∧ t.out = vdecode (nanDraw s) a0 a1 a2 s.sv s.cc ∧
      t.stat = statSet s.stat .outv ∧ t.port = .answered ⟨.ok, t.out.get k⟩ ∧ t.sv = s.sv ∧ t.cc = s.cc ∧
      t.phase = s.phase ∧ t.inbox = s.inbox := by
  obtain ⟨t, ht, h⟩ := next_writeOut k (vdecode (nanDraw s) a0 a1 a2 s.sv s.cc) s
  exact ⟨t, (exec_dec_ok k a0 a1 a2 h0 h1).trans (congrArg Host.Outcome.next ht), h⟩

/-- Vertex `k` of `vdecode`, lane by lane on signed inputs, each draw named by a number (42_position_decode.md R70). -/
theorem vdecode_vertex (nan : Nat → Word) (a0 a1 a2 : Lanes Half) (s c : Lanes Word) (k : Fin 4) :
    (vdecode nan a0 a1 a2 s c).get k =
      ⟨decodeLane (nan (8 * k.val)) (nan (8 * k.val + 1)) (a0.get k).toInt s.l0 c.l0,
       decodeLane (nan (8 * k.val + 2)) (nan (8 * k.val + 3)) (a1.get k).toInt s.l1 c.l1,
       decodeLane (nan (8 * k.val + 4)) (nan (8 * k.val + 5)) (a2.get k).toInt s.l2 c.l2,
       decodeLane (nan (8 * k.val + 6)) (nan (8 * k.val + 7)) 0 s.l3 c.l3⟩ := by
  rw [vdecode]
  simp only [get_ofFn, transpose_sextLanes]
  rfl

/-- What a command can do to the state it is run on: the response it drives, and the fields no command touches. -/
structure Ran (s t : State) : Prop where
  phase : t.phase = s.phase
  inbox : t.inbox = s.inbox
  answered : ∃ r, t.port = .answered r
  draws : s.draws ≤ t.draws
  statKept : ∀ i, s.stat.getLsbD i = true → t.stat.getLsbD i = true

theorem ran_respond {s t : State} (rc : RespCode) (r : Lanes Word) (hp : t.phase = s.phase) (hi : t.inbox = s.inbox)
    (hd : s.draws ≤ t.draws) (hs : ∀ i, s.stat.getLsbD i = true → t.stat.getLsbD i = true) :
    Ran s (respond rc r t) :=
  ⟨hp, hi, ⟨⟨rc, r⟩, rfl⟩, hd, hs⟩

theorem statSet_keeps (w : Word) (b : StatBit) (i : Nat) (h : w.getLsbD i = true) : (statSet w b).getLsbD i = true := by
  rw [getLsbD_statSet, h, Bool.true_or]

/-- A register-reading command: the register's words if its valid bit is 1, `UNINIT` if not. -/
theorem ran_read (b : Bool) (r : Lanes Word) (s : State) : Ran s (if b then respond .ok r s else fail .uninit s) := by
  cases b
  · exact ran_respond _ _ rfl rfl le_rfl fun i h => statSet_keeps _ _ i h
  · exact ran_respond _ _ rfl rfl le_rfl fun _ h => h

theorem ran_writeOut (k : Fin 4) (p : Lanes (Lanes Word)) (s : State) :
    Ran s (respond .ok (p.get k) (advanceDraws 32 (writeOut p s))) :=
  ran_respond _ _ rfl rfl (by simp) fun i h => statSet_keeps _ _ i h

theorem ran_decodeAndRespond (k : Fin 4) (a0 a1 a2 : Lanes Half) (s : State) :
    Ran s (decodeAndRespond k a0 a1 a2 s) := ran_writeOut k _ s

theorem ran_svb (v : Lanes Word) (s : State) : Ran s (respondOk (advanceDraws 2 (writeSv v s))) :=
  ran_respond _ _ rfl rfl (by simp) fun i h => statSet_keeps _ _ i h

theorem ran_writeSv (v : Lanes Word) (s : State) : Ran s (respondOk (writeSv v s)) :=
  ran_respond _ _ rfl rfl le_rfl fun i h => statSet_keeps _ _ i h

theorem ran_writeCc (v : Lanes Word) (s : State) : Ran s (respondOk (writeCc v s)) :=
  ran_respond _ _ rfl rfl le_rfl fun i h => statSet_keeps _ _ i h

theorem ran_fail (code : RespCode) (s : State) : Ran s (fail code s) := by
  cases code
  · exact ran_respond _ _ rfl rfl le_rfl fun _ h => h
  · exact ran_respond _ _ rfl rfl le_rfl fun i h => statSet_keeps _ _ i h
  · exact ran_respond _ _ rfl rfl le_rfl fun i h => statSet_keeps _ _ i h

/-- Every instruction ends in a next state, with one response (00_scope.md R10). -/
theorem exec_ran (i : Instr) (s : State) : ∃ t, exec i s = .next t ∧ Ran s t := by
  cases i with
  | nop => exact ⟨_, rfl, ran_respond _ _ rfl rfl le_rfl fun _ h => h⟩
  | svb c hd => exact ⟨_, rfl, ran_svb _ s⟩
  | wrsv v => exact ⟨_, rfl, ran_writeSv v s⟩
  | rdsv => exact ⟨_, rfl, ran_read _ _ s⟩
  | ccb o m => exact ⟨_, rfl, ran_writeCc _ s⟩
  | wrcc v => exact ⟨_, rfl, ran_writeCc v s⟩
  | rdcc => exact ⟨_, rfl, ran_read _ _ s⟩
  | dec k a0 a1 a2 =>
    refine ⟨_, rfl, ?_⟩
    split
    · exact ran_decodeAndRespond k a0 a1 a2 s
    · exact ran_fail _ s
  | rdout k => exact ⟨_, rfl, ran_read _ _ s⟩
  | rdstat => exact ⟨_, rfl, ran_respond _ _ rfl rfl le_rfl fun _ h => h⟩

theorem runCommand_ok {c : Command} {i : Instr} (h : decode c = .ok i) (s : State) : runCommand c s = exec i s := by
  simp [runCommand, h]

theorem runCommand_illegal {c : Command} (h : legal c.cmd = false) (s : State) :
    runCommand c s = .next (fail .ill s) := by
  obtain ⟨e, he⟩ := Decode.decode_illegal h
  rw [runCommand, he]

/-- Every command, legal or not, ends in a next state, with one response (00_scope.md R10, 60_exceptions.md R87). -/
theorem runCommand_ran (c : Command) (s : State) : ∃ t, runCommand c s = .next t ∧ Ran s t := by
  cases h : decode c with
  | ok i => rw [runCommand_ok h]; exact exec_ran i s
  | error e => exact ⟨_, by rw [runCommand, h], ran_fail _ s⟩

/-- A step with nothing presented. -/
theorem step_idle {s : State} (h : s.inbox = []) : step s = .next (idle s) := by simp [step, h]

/-- A step with something presented. -/
theorem step_event {s : State} {e : HostEvent} {rest : List HostEvent} (h : s.inbox = e :: rest) :
    step s = handleEvent e (takeEvent rest s) := by simp [step, h]

/-- A step of an operational block that is presented a command. -/
theorem step_command {s : State} {c : Command} {rest : List HostEvent} (hp : s.phase = .operational)
    (h : s.inbox = .command c :: rest) : step s = runCommand c (takeEvent rest s) := by
  simp [step_event h, handleEvent, presentCommand, hp]

/-- All that a step can do when it answers a next state. -/
theorem step_cases {s t : State} (h : step s = .next t) :
    (s.inbox = [] ∧ t = idle s) ∨
    (∃ rest, s.inbox = .powerOn :: rest ∧ t = powerUp (takeEvent rest s)) ∨
    (∃ rest, s.inbox = .reset :: rest ∧ t = applyReset (takeEvent rest s)) ∨
    (∃ c rest, s.inbox = .command c :: rest ∧ s.phase = .operational ∧ runCommand c (takeEvent rest s) = .next t) ∨
    (∃ c rest u, s.inbox = .commandWithReset c :: rest ∧ Config.resetFirst s.draws = true ∧
      runCommand c (applyReset (advanceDraws 1 (takeEvent rest s))) = .next u ∧ t = loseResponse u) ∨
    (∃ c rest u, s.inbox = .commandWithReset c :: rest ∧ Config.resetFirst s.draws = false ∧
      runCommand c (advanceDraws 1 (takeEvent rest s)) = .next u ∧ t = loseResponse (applyReset u)) := by
  cases hi : s.inbox with
  | nil => rw [step_idle hi] at h; cases h; exact .inl ⟨rfl, rfl⟩
  | cons e rest =>
    rw [step_event hi] at h
    cases e with
    | powerOn => cases h; exact .inr (.inl ⟨rest, rfl, rfl⟩)
    | reset => cases h; exact .inr (.inr (.inl ⟨rest, rfl, rfl⟩))
    | command c =>
      cases hp : s.phase with
      | unreset => simp [handleEvent, presentCommand, hp] at h
      | operational =>
        exact .inr (.inr (.inr (.inl ⟨c, rest, rfl, rfl, by simpa [handleEvent, presentCommand, hp] using h⟩)))
    | commandWithReset c =>
      cases hr : Config.resetFirst s.draws with
      | true =>
        obtain ⟨u, hu, -⟩ := runCommand_ran c (applyReset (advanceDraws 1 (takeEvent rest s)))
        simp [handleEvent, presentWithReset, hr, hu, mapNext] at h
        exact .inr (.inr (.inr (.inr (.inl ⟨c, rest, u, rfl, rfl, hu, h.symm⟩))))
      | false =>
        obtain ⟨u, hu, -⟩ := runCommand_ran c (advanceDraws 1 (takeEvent rest s))
        simp [handleEvent, presentWithReset, hr, hu, mapNext] at h
        exact .inr (.inr (.inr (.inr (.inr ⟨c, rest, u, rfl, rfl, hu, h.symm⟩))))

end Sys2Proof.Laws.Ops
end

