-- ==== Sys2Proof/Laws/Rounding.lean ====
section
/-! SUPPORT. `round32` is the correct rounding of the exact value it is given (00_scope.md R7): the one numeric lemma that the products,
sums, conversions and quotients rest on. -/

namespace Sys2Proof.Laws.Rounding

open Sys2Proof.Machine Sys2Proof.Safety Sys2Proof.Laws.Float

/-- The sign as a factor. -/
def signFactor (neg : Bool) : ℚ := if neg then -1 else 1

theorem value_packSign (neg : Bool) {m : Nat} (h : m < 2 ^ 31) :
    value (packSign neg m) = signFactor neg * magOf m / 2 ^ 149 := by
  rw [value, units, signBit_packSign neg h, magUnits_packSign neg h, signFactor]
  cases neg <;> simp

theorem value_eq (x : Word) : value x = signFactor (signBit x) * magUnits x / 2 ^ 149 := by
  rw [value, units, signFactor]
  cases signBit x <;> simp

/-- The significand that `roundMag` finds, on its last place, is nearest to `n / d` among all magnitudes, and even at a tie. -/
theorem near_of_rounding {n d : Nat} (hd : 0 < d) (R : Rounding n d) {s' q' : Nat} (hq' : q' < 2 ^ 24) :
    |(R.q * 2 ^ R.s : ℚ) - n / d| ≤ |(q' * 2 ^ s' : ℚ) - n / d| ∧
      (|(q' * 2 ^ s' : ℚ) - n / d| = |(R.q * 2 ^ R.s : ℚ) - n / d| → (q' * 2 ^ s' : ℚ) ≠ R.q * 2 ^ R.s → R.q % 2 = 0) := by
  obtain ⟨s, q, ha, hb, ht, hq, hqs, hns, -⟩ := R
  have hdq : (0 : ℚ) < d := by exact_mod_cast hd
  have hD : (0 : ℚ) < 2 ^ s := by positivity
  have ha' : (n : ℚ) / d ≤ (q + 1 / 2) * 2 ^ s := by
    rw [div_le_iff₀ hdq]
    have : (2 * n : ℚ) ≤ (2 * q + 1) * (2 ^ s * d) := by exact_mod_cast ha
    linarith
  have hb' : (q - 1 / 2) * 2 ^ s ≤ (n : ℚ) / d := by
    rw [le_div_iff₀ hdq]
    have : (2 * q * (2 ^ s * d) : ℚ) ≤ 2 * n + 2 ^ s * d := by exact_mod_cast hb
    linarith
  have ht' : (n : ℚ) / d = (q + 1 / 2) * 2 ^ s ∨ (n : ℚ) / d = (q - 1 / 2) * 2 ^ s → q % 2 = 0 := by
    rintro (h | h) <;> rw [div_eq_iff hdq.ne'] at h
    · refine ht (.inl ?_)
      have : (2 * n : ℚ) = (2 * q + 1) * (2 ^ s * d) := by rw [h]; ring
      exact_mod_cast this
    · refine ht (.inr ?_)
      have : (2 * q * (2 ^ s * d) : ℚ) = 2 * n + 2 ^ s * d := by rw [h]; ring
      exact_mod_cast this
  set u : ℚ := n / d with hu
  clear_value u
  show |(q * 2 ^ s : ℚ) - u| ≤ |(q' * 2 ^ s' : ℚ) - u| ∧
      (|(q' * 2 ^ s' : ℚ) - u| = |(q * 2 ^ s : ℚ) - u| → (q' * 2 ^ s' : ℚ) ≠ q * 2 ^ s → q % 2 = 0)
  have hnear : |(q * 2 ^ s : ℚ) - u| ≤ 2 ^ s / 2 := by
    rw [abs_le]; constructor <;> linarith
  have hhalf : |(q * 2 ^ s : ℚ) - u| = 2 ^ s / 2 → q % 2 = 0 := by
    intro h
    rcases abs_eq (by positivity : (0 : ℚ) ≤ 2 ^ s / 2) |>.1 h with h | h
    · exact ht' (.inr (by linarith))
    · exact ht' (.inl (by linarith))
  rcases Nat.lt_or_ge s' s with hlt | hge
  · -- a magnitude below the binade of `u`
    have hs0 : s ≠ 0 := by omega
    have hq23 : (2 ^ 23 : ℚ) ≤ q := by
      have := hqs.resolve_left hs0
      exact_mod_cast this
    have hun : (2 ^ 23 : ℚ) * 2 ^ s ≤ u := by
      have h := hns.resolve_left hs0
      have h' : (2 ^ (23 + s) * d : ℚ) ≤ n := by exact_mod_cast h
      rw [hu, le_div_iff₀ hdq, ← pow_add]
      exact h'
    have hM : (q' * 2 ^ s' : ℚ) ≤ 2 ^ 23 * 2 ^ s - 2 ^ s / 2 := by
      have h1 : (2 : ℚ) ^ s' ≤ 2 ^ (s - 1) := pow_le_pow_right₀ (by norm_num) (by omega)
      have h2 : (q' : ℚ) ≤ 2 ^ 24 - 1 := by
        have : q' + 1 ≤ 2 ^ 24 := by omega
        have : ((q' + 1 : ℕ) : ℚ) ≤ 2 ^ 24 := by exact_mod_cast this
        push_cast at this
        linarith
      have h3 : (2 : ℚ) ^ s = 2 * 2 ^ (s - 1) := by
        rw [← pow_succ']; congr 1; omega
      have h4 : (q' * 2 ^ s' : ℚ) ≤ (2 ^ 24 - 1) * 2 ^ (s - 1) :=
        mul_le_mul h2 h1 (by positivity) (by norm_num)
      rw [h3]
      linarith
    have hMu : |(q' * 2 ^ s' : ℚ) - u| = u - q' * 2 ^ s' := by
      rw [abs_sub_comm, abs_of_nonneg]; linarith
    rcases le_total ((q : ℚ) * 2 ^ s) u with h | h
    · have hqu : |(q * 2 ^ s : ℚ) - u| = u - q * 2 ^ s := by
        rw [abs_sub_comm, abs_of_nonneg]; linarith
      have hmul : (2 ^ 23 : ℚ) * 2 ^ s ≤ q * 2 ^ s := mul_le_mul_of_nonneg_right hq23 hD.le
      rw [hMu, hqu]
      exact ⟨by linarith, fun e => by linarith⟩
    · rw [hMu]
      refine ⟨by linarith, fun e _ => hhalf ?_⟩
      linarith
  · -- a multiple of the last place
    obtain ⟨j, hj⟩ : ∃ j : Nat, (q' * 2 ^ s' : ℚ) = j * 2 ^ s := by
      refine ⟨q' * 2 ^ (s' - s), ?_⟩
      push_cast
      rw [mul_assoc, ← pow_add]
      congr 2
      omega
    rw [hj]
    rcases eq_or_ne j q with rfl | hne
    · exact ⟨le_rfl, fun _ h => absurd rfl h⟩
    · have hfar : 2 ^ s / 2 ≤ |(j * 2 ^ s : ℚ) - u| := by
        have h1 : (1 : ℚ) ≤ |(j : ℚ) - q| := by
          have : (1 : ℤ) ≤ |(j : ℤ) - q| := Int.one_le_abs (by omega)
          exact_mod_cast this
        have h2 : |(j : ℚ) - q| * 2 ^ s ≤ |(j * 2 ^ s : ℚ) - u| + |(q * 2 ^ s : ℚ) - u| := by
          have e : |(j : ℚ) - q| * 2 ^ s = |(j * 2 ^ s - u : ℚ) - (q * 2 ^ s - u)| := by
            rw [← abs_of_pos hD, ← abs_mul, abs_of_pos hD]; congr 1; ring
          rw [e]
          exact abs_sub _ _
        have h3 : (2 : ℚ) ^ s ≤ |(j : ℚ) - q| * 2 ^ s := le_mul_of_one_le_left hD.le h1
        linarith
      exact ⟨hnear.trans hfar, fun e _ => hhalf (le_antisymm hnear (e ▸ hfar))⟩

/-- `roundMag` stays below the infinity exactly while `n / d` is below the overflow threshold, in units. -/
theorem finite_iff {n d : Nat} (hd : 0 < d) (R : Rounding n d) :
    n < (2 ^ 25 - 1) * (2 ^ 252 * d) ↔ R.s * 2 ^ 23 + R.q < infBits := by
  have hbelow := R.near_below
  have habove := R.near_above
  have htie := R.tie
  have hq := R.q_le
  have hqs := R.q_ge
  have hns := R.n_ge
  have e253 : 2 ^ 253 * d = 2 * (2 ^ 252 * d) := by rw [show 253 = 252 + 1 from rfl, pow_succ]; ring
  rw [infBits]
  constructor
  · intro h
    by_contra hc
    rcases Nat.lt_or_ge R.s 254 with h254 | h254
    · have h253 : R.s = 253 := by omega
      have hq24 : R.q = 2 ^ 24 := by omega
      rw [h253, hq24, e253] at hbelow
      generalize 2 ^ 252 * d = B at *
      omega
    · have hp : 2 ^ 254 * d ≤ 2 ^ R.s * d := Nat.mul_le_mul_right _ (Nat.pow_le_pow_right (by norm_num) h254)
      have h1 := hns.resolve_left (by omega)
      have e254 : 2 ^ 254 * d = 4 * (2 ^ 252 * d) := by rw [show 254 = 252 + 2 from rfl, pow_add]; ring
      rw [pow_add, Nat.mul_assoc] at h1
      rw [e254] at hp
      generalize 2 ^ 252 * d = B at *
      generalize 2 ^ R.s * d = C at *
      omega
  · intro h
    by_contra hc
    rcases Nat.lt_or_ge R.s 253 with h253 | h253
    · have hp : 2 ^ R.s ≤ 2 ^ 252 := Nat.pow_le_pow_right (by norm_num) (by omega)
      have h1 : (2 * R.q + 1) * (2 ^ R.s * d) ≤ (2 * 2 ^ 24 + 1) * (2 ^ 252 * d) :=
        Nat.mul_le_mul (by omega) (Nat.mul_le_mul_right _ hp)
      have hB : 0 < 2 ^ 252 * d := by positivity
      generalize 2 ^ 252 * d = B at *
      omega
    · have h253' : R.s = 253 := by omega
      rw [h253', e253] at habove htie
      have hB : 0 < 2 ^ 252 * d := by positivity
      have h1 : (2 * R.q + 1) * (2 * (2 ^ 252 * d)) ≤ (2 * (2 ^ 24 - 1) + 1) * (2 * (2 ^ 252 * d)) :=
        Nat.mul_le_mul_right _ (by omega)
      have h2 : 2 * n = (2 * R.q + 1) * (2 * (2 ^ 252 * d)) := by
        generalize 2 ^ 252 * d = B at *
        omega
      have heven := htie (.inl h2)
      have h4 : (2 * R.q + 1) * (2 * (2 ^ 252 * d)) ≤ (2 * (2 ^ 24 - 2) + 1) * (2 * (2 ^ 252 * d)) :=
        Nat.mul_le_mul_right _ (by omega)
      generalize 2 ^ 252 * d = B at *
      omega

/-- `round32` of `± n / d` units is the correct rounding (00_scope.md R7). -/
theorem round32_correct (neg : Bool) (n : Nat) {d : Nat} (hd : 0 < d) :
    CorrectlyRounded (signFactor neg * (n / d) / 2 ^ 149) (round32 neg n d) := by
  obtain ⟨R⟩ := rounding_exists n hd
  have hbits : round32 neg n d = packSign neg (min infBits (R.s * 2 ^ 23 + R.q)) := by rw [round32, R.bits]
  have hdq : (0 : ℚ) < d := by exact_mod_cast hd
  have habs : |signFactor neg * ((n : ℚ) / d) / 2 ^ 149| = (n : ℚ) / d / 2 ^ 149 := by
    have h0 : (0 : ℚ) ≤ n / d := by positivity
    rw [abs_div, abs_mul, abs_of_nonneg h0, abs_of_pos (by positivity : (0 : ℚ) < 2 ^ 149), signFactor]
    cases neg <;> simp
  have hthr : overflowThreshold = ((2 ^ 25 - 1) * 2 ^ 252 : ℚ) / 2 ^ 149 := by rw [overflowThreshold]; norm_num
  have hlt_iff : |signFactor neg * ((n : ℚ) / d) / 2 ^ 149| < overflowThreshold ↔
      n < (2 ^ 25 - 1) * (2 ^ 252 * d) := by
    rw [habs, hthr, div_lt_div_iff_of_pos_right (by positivity), div_lt_iff₀ hdq, mul_assoc]
    have : (((2 ^ 25 - 1) * (2 ^ 252 * d) : ℕ) : ℚ) = (2 ^ 25 - 1) * (2 ^ 252 * d) := by push_cast; norm_num
    rw [← this]
    exact_mod_cast Iff.rfl
  have hfin_iff := finite_iff hd R
  constructor
  · intro hx
    have hfin := hfin_iff.1 (hlt_iff.1 hx)
    have h31 : R.s * 2 ^ 23 + R.q < 2 ^ 31 := by rw [infBits] at hfin; omega
    rw [hbits, min_eq_right hfin.le]
    refine ⟨isFinite_packSign neg hfin, fun y hy => ?_⟩
    rw [value_packSign neg h31, magOf_pack R.q_le R.q_ge, value_eq y, magUnits_eq y, fracField_packSign neg h31]
    obtain ⟨s', q', hp, hq', hs'⟩ := exists_pack (y.toNat % 2 ^ 31)
    rw [hp, magOf_pack hq'.le hs']
    obtain ⟨hnear, htie⟩ := near_of_rounding hd R (s' := s') hq'
    have hpos : (0 : ℚ) ≤ n / d := by positivity
    have hM : (0 : ℚ) ≤ q' * 2 ^ s' := by positivity
    have hpos2 : (0 : ℚ) ≤ q' * 2 ^ s' + n / d := by positivity
    have hQ : (0 : ℚ) ≤ R.q * 2 ^ R.s := by positivity
    have heven : R.q % 2 = 0 → (R.s * 2 ^ 23 + R.q) % 2 ^ 23 % 2 = 0 := by omega
    push_cast
    have e149 : (0 : ℚ) < 2 ^ 149 := by positivity
    have hr : |signFactor neg * (R.q * 2 ^ R.s) / 2 ^ 149 - signFactor neg * ((n : ℚ) / d) / 2 ^ 149| =
        |(R.q * 2 ^ R.s : ℚ) - n / d| / 2 ^ 149 := by
      rw [← sub_div, ← mul_sub, abs_div, abs_mul, abs_of_pos e149, signFactor]
      cases neg <;> simp
    have hy' : |signFactor (signBit y) * (q' * 2 ^ s') / 2 ^ 149 - signFactor neg * ((n : ℚ) / d) / 2 ^ 149| =
        (if signBit y = neg then |(q' * 2 ^ s' : ℚ) - n / d| else q' * 2 ^ s' + n / d) / 2 ^ 149 := by
      rw [← sub_div, abs_div, abs_of_pos e149]
      congr 1
      cases signBit y <;> cases neg <;> simp [signFactor]
      · exact hpos2
      · rw [← neg_add', abs_neg, abs_of_nonneg hpos2]
      · rw [← sub_eq_neg_add, abs_sub_comm]
    rw [hr, hy', div_le_div_iff_of_pos_right e149, div_left_inj' e149.ne']
    split
    · rename_i hs
      rw [hs]
      refine ⟨hnear, fun he hv => heven (htie he ?_)⟩
      rintro h
      exact hv (by rw [h])
    · have hbig : |(q' * 2 ^ s' : ℚ) - n / d| ≤ q' * 2 ^ s' + n / d := by
        rw [abs_le]; constructor <;> linarith
      refine ⟨hnear.trans hbig, fun he hv => heven ?_⟩
      by_cases hMq : (q' * 2 ^ s' : ℚ) = R.q * 2 ^ R.s
      · -- the same magnitude on both sides of zero is as near only if it is zero
        rw [hMq] at he hv hbig
        have hz : (R.q * 2 ^ R.s : ℚ) = 0 := by
          rcases le_total (R.q * 2 ^ R.s : ℚ) (n / d) with h | h
          · rw [abs_sub_comm, abs_of_nonneg (by linarith)] at he
            linarith
          · rw [abs_of_nonneg (by linarith)] at he
            have hn0 : (n : ℚ) / d = 0 := by linarith
            have hn : n = 0 := by
              rcases div_eq_zero_iff.1 hn0 with h | h
              · exact_mod_cast h
              · exact absurd h hdq.ne'
            have hb := R.near_below
            have : R.q = 0 := by
              by_contra hc
              have h1 : 2 * (2 ^ R.s * d) ≤ 2 * R.q * (2 ^ R.s * d) := Nat.mul_le_mul_right _ (by omega)
              have h2 : 0 < 2 ^ R.s * d := by positivity
              omega
            rw [this]; simp
        rw [hz] at hv
        simp at hv
      · exact htie (le_antisymm (hbig.trans he.le) hnear) hMq
  · intro hx
    have hfin : ¬ R.s * 2 ^ 23 + R.q < infBits := fun h => absurd (hlt_iff.2 (hfin_iff.2 h)) (not_lt.2 hx)
    rw [hbits, min_eq_left (not_lt.1 hfin)]
    refine ⟨isInf_packSign neg, ?_⟩
    rw [signBit_packSign neg (by rw [infBits]; norm_num)]
    have hn : (0 : ℚ) < n / d := by
      rcases Nat.eq_zero_or_pos n with h | h
      · rw [h] at hx
        simp [overflowThreshold] at hx
        norm_num at hx
      · have : (0 : ℚ) < n := by exact_mod_cast h
        positivity
    cases neg
    · simp [signFactor]; positivity
    · simp [signFactor]
      rw [neg_div]
      linarith [div_pos hn (by positivity : (0 : ℚ) < 2 ^ 149)]

end Sys2Proof.Laws.Rounding
end

