-- ==== Sys2Proof/Tests/Slice0.lean ====
section
/-! SUPPORT. Tests. Every expected result is from 95_test_vectors.md (named by its vector) or worked out by hand from the rule named;
the witnesses at the end show, for every statement with hypotheses, a state and operands that meet them together. -/

namespace Sys2Proof.Tests

open Sys2Proof.Machine Sys2Proof.Safety

/-! ## Helpers -/

/-- A reset block that is presented one command. -/
def given (cmd : Word) (d : Payload) : State := { State.reset with inbox := [.command ⟨cmd, d⟩] }

/-- Ones in lanes 0 to 2 and +0 in lane 3: `WRSV 1, 1, 1, 0` of 95_test_vectors.md. -/
def unitScale : Lanes Word := ⟨0x3F800000#32, 0x3F800000#32, 0x3F800000#32, 0x00000000#32⟩

/-- `SV` after `SVB 2048/256` (V1). -/
def scaleA : Lanes Word := ⟨0x3D800100#32, 0x3C000100#32, 0x3D800100#32, 0x00000000#32⟩

/-- `CC` after `CCB A` (V13). -/
def coordsA : Lanes Word := ⟨0x447A0000#32, 0x42C80000#32, 0x453B8000#32, 0x453B8000#32⟩

/-- The origin operand of `CCB A` (V13). -/
def originA : Lanes Word := ⟨0x447A0000#32, 0x40A00000#32, 0x453B8000#32, 0x40E00000#32⟩

/-- A block with the registers of cell A and the given `STAT`. -/
def cellA (stat : Word) : State := { State.reset with sv := scaleA, cc := coordsA, stat := stat }

/-- A pattern that is a NaN, for draws that a test does not take. -/
def someNaN : Nat → Word := fun _ => 0x7FC00000#32

/-- The port of a next outcome. -/
def portOf (o : Host.Outcome State Fault Refusal) : Option PortOut :=
  match o with
  | .next t => some t.port
  | .fault _ => none
  | .refused _ => none

/-- `STAT` of a next outcome. -/
def statOf (o : Host.Outcome State Fault Refusal) : Option Word :=
  match o with
  | .next t => some t.stat
  | .fault _ => none
  | .refused _ => none

/-- The state of a next outcome. -/
def stateOf (o : Host.Outcome State Fault Refusal) : Option State :=
  match o with
  | .next t => some t
  | .fault _ => none
  | .refused _ => none

/-! ## WellFormed: an ill-formed word for each check, refused by name (30_encoding.md R43, R45, R42; V32) -/

theorem test_reserved_bit_refused :
    reservedZero 0x00000047#32 = false ∧ (Command.mk 0x00000047#32 Payload.zero).wellFormed = false ∧
      decode ⟨0x00000047#32, Payload.zero⟩ = .error .reservedBits := by decide

theorem test_reserved_opcode_refused :
    opcodeKnown 0x0000000A#32 = false ∧ (Command.mk 0x0000000A#32 Payload.zero).wellFormed = false ∧
      decode ⟨0x0000000A#32, Payload.zero⟩ = .error .reservedOpcode := by decide

theorem test_unused_vsel_refused :
    vselAllowed 0x00000011#32 = false ∧ (Command.mk 0x00000011#32 Payload.zero).wellFormed = false ∧
      decode ⟨0x00000011#32, Payload.zero⟩ = .error .vselNotUsed := by decide

/-- The illegal words of V32. -/
theorem test_illegal_words :
    [0x0000000A#32, 0x0000000B#32, 0x0000000C#32, 0x0000000D#32, 0x0000000E#32, 0x0000000F#32, 0x0000003F#32, 0x00000010#32,
      0x00000011#32, 0x00000029#32, 0x00000047#32, 0x80000008#32, 0xFFFFFFFF#32].all (fun w => !legal w) = true := by decide

/-- A byte string of 27 bytes is no command; 28 zero bytes are `NOP` (30_encoding.md R51, R44). -/
theorem test_byte_stream_length :
    decodeBytes .little (List.replicate 27 0#8) = .error .truncated ∧
      decodeBytes .big (List.replicate 28 0#8) = .ok (.nop, []) := by decide

/-! ## Decode: `CMD` written out from 30_encoding.md R40 to R44 as RSVD (26 bits), VSEL (2 bits), OPC (4 bits) -/

theorem test_decode_nop :
    decode ⟨0b00000000000000000000000000_00_0000#32, ⟨1#32, 2#32, 3#32, 4#32, 5#32, 6#32⟩⟩ = .ok .nop := by decide

theorem test_decode_svb :
    decode ⟨0b00000000000000000000000000_00_0001#32, ⟨1#32, 2#32, 3#32, 4#32, 5#32, 6#32⟩⟩ = .ok (.svb 1#32 2#32) := by decide

theorem test_decode_wrsv :
    decode ⟨0b00000000000000000000000000_00_0010#32, ⟨1#32, 2#32, 3#32, 4#32, 5#32, 6#32⟩⟩ =
      .ok (.wrsv ⟨1#32, 2#32, 3#32, 4#32⟩) := by decide

theorem test_decode_rdsv :
    decode ⟨0b00000000000000000000000000_00_0011#32, ⟨1#32, 2#32, 3#32, 4#32, 5#32, 6#32⟩⟩ = .ok .rdsv := by decide

theorem test_decode_ccb :
    decode ⟨0b00000000000000000000000000_00_0100#32, ⟨1#32, 2#32, 3#32, 4#32, 5#32, 6#32⟩⟩ =
      .ok (.ccb ⟨1#32, 2#32, 3#32, 4#32⟩ 5#32) := by decide

theorem test_decode_wrcc :
    decode ⟨0b00000000000000000000000000_00_0101#32, ⟨1#32, 2#32, 3#32, 4#32, 5#32, 6#32⟩⟩ =
      .ok (.wrcc ⟨1#32, 2#32, 3#32, 4#32⟩) := by decide

theorem test_decode_rdcc :
    decode ⟨0b00000000000000000000000000_00_0110#32, ⟨1#32, 2#32, 3#32, 4#32, 5#32, 6#32⟩⟩ = .ok .rdcc := by decide

/-- `DEC.v1` with the payload of V21: the lower-numbered lane is in bits 15:0 (20_memory.md R33). -/
theorem test_decode_dec :
    decode ⟨0b00000000000000000000000000_01_0111#32,
      ⟨0x7FFF0000#32, 0x00018000#32, 0x7FFF0000#32, 0xFFFF8000#32, 0x40000000#32, 0x0064FFFF#32⟩⟩ =
      .ok (.dec 1 ⟨0x0000#16, 0x7FFF#16, 0x8000#16, 0x0001#16⟩ ⟨0x0000#16, 0x7FFF#16, 0x8000#16, 0xFFFF#16⟩
        ⟨0x0000#16, 0x4000#16, 0xFFFF#16, 0x0064#16⟩) := by decide

theorem test_decode_rdout :
    decode ⟨0b00000000000000000000000000_10_1000#32, Payload.zero⟩ = .ok (.rdout 2) ∧
      decode ⟨0b00000000000000000000000000_11_1000#32, Payload.zero⟩ = .ok (.rdout 3) := by decide

theorem test_decode_rdstat :
    decode ⟨0b00000000000000000000000000_00_1001#32, ⟨1#32, 2#32, 3#32, 4#32, 5#32, 6#32⟩⟩ = .ok .rdstat := by decide

/-- The host's numbering: `CMD` in the low 32 bits, `D[0]` above it; bits above `nbits` are 0. -/
theorem test_decode_table_word :
    decodeTableWord 32 0x00000027 = some (.dec 2 (Lanes.fill 0#16) (Lanes.fill 0#16) (Lanes.fill 0#16)) ∧
      decodeTableWord 224 (0x00000001 + 0x45000000 * 2 ^ 32 + 0x00000100 * 2 ^ 64) = some (.svb 0x45000000#32 0x00000100#32) ∧
      decodeTableWord 32 0x0000000A = none := by decide

/-- The word presented next is the one that runs: `DEC.v0` after reset fails with `UNINIT` (V33). -/
theorem test_with_fetch_word :
    portOf (step (State.reset.withFetchWord 32 0x00000007)) = some (.answered ⟨.uninit, Lanes.fill 0#32⟩) ∧
      statOf (step (State.reset.withFetchWord 32 0x00000007)) = some 0x00000010#32 := by decide

/-! ## SVB, WRSV, RDSV -/

/-- V1 to V8c under `F32_RECIP`. -/
theorem test_svb_recip :
    scaleVector .f32Recip 0#32 0#32 0x45000000#32 0x00000100#32 = scaleA ∧
    scaleVector .f32Recip 0#32 0#32 0x80000000#32 0x00000000#32 = ⟨0x80000000#32, 0#32, 0x80000000#32, 0#32⟩ ∧
    scaleVector .f32Recip 0#32 0#32 0x3F800000#32 0x00007FFF#32 = ⟨0x38000100#32, 0x3F800000#32, 0x38000100#32, 0#32⟩ ∧
    scaleVector .f32Recip 0#32 0#32 0x42C80000#32 0xFFFFFF00#32 = ⟨0x3B480190#32, 0xBC000100#32, 0x3B480190#32, 0#32⟩ ∧
    scaleVector .f32Recip 0#32 0#32 0x4B800000#32 0x01000001#32 = ⟨0x44000100#32, 0x44000100#32, 0x44000100#32, 0#32⟩ ∧
    scaleVector .f32Recip 0#32 0#32 0x45000000#32 0x80000000#32 = ⟨0x3D800100#32, 0xC7800100#32, 0x3D800100#32, 0#32⟩ := by
  decide

/-- V9a, V9c, V9d, V9e, V9f and V10: `STAT`, the drawn NaN in both lanes, the two values of `SVB_ARITH`, infinity, the largest value, a subnormal result, underflow. -/
theorem test_svb_corners :
    statOf (exec (.svb 0x45000000#32 0x00000100#32) (cellA 0x0000001A#32)) = some 0x0000001B#32 ∧
    scaleVector .f32Recip 3#32 4#32 0x7FC00000#32 1#32 = ⟨3#32, 0x38000100#32, 3#32, 0#32⟩ ∧
    (scaleVector .f32Recip 0#32 0#32 0x7F800000#32 0#32).l0 = 0x7F800000#32 ∧
    (scaleVector .f32Recip 0#32 0#32 0x7F7FFFFF#32 0#32).l0 = 0x780000FF#32 ∧
    (scaleVector .exactDiv 0#32 0#32 0x7F7FFFFF#32 0#32).l0 = 0x78000100#32 ∧
    (scaleVector .f32Recip 0#32 0#32 0x00800000#32 0#32).l0 = 0x00000100#32 ∧
    (scaleVector .f32Recip 0#32 0#32 0x00000001#32 0#32).l0 = 0#32 ∧
    (scaleVector .f32Recip 0#32 0#32 0x446A3FF4#32 0#32).l2 = 0x3CEA41C8#32 ∧
    (scaleVector .exactDiv 0#32 0#32 0x446A3FF4#32 0#32).l2 = 0x3CEA41C9#32 := by
  decide

/-- V11: a NaN payload, a subnormal and an infinity are stored as given. -/
theorem test_wrsv :
    stateOf (exec (.wrsv ⟨0x7FC00001#32, 0x00000001#32, 0xFF800000#32, 0x3F800000#32⟩) State.reset) =
      some { State.reset with
        sv := ⟨0x7FC00001#32, 0x00000001#32, 0xFF800000#32, 0x3F800000#32⟩, stat := 0x00000001#32,
        port := .answered ⟨.ok, Lanes.fill 0#32⟩ } := by decide

/-- V12, through a step from reset. -/
theorem test_rdsv_uninit :
    portOf (step (given 0x00000003#32 Payload.zero)) = some (.answered ⟨.uninit, Lanes.fill 0#32⟩) ∧
      statOf (step (given 0x00000003#32 Payload.zero)) = some 0x00000010#32 := by decide

theorem test_rdsv_ok : portOf (exec .rdsv (cellA 0x00000001#32)) = some (.answered ⟨.ok, scaleA⟩) := by decide

/-! ## CCB, WRCC, RDCC -/

/-- V13 and V15 under each value of `CC_PERM`. -/
theorem test_cell_coords :
    cellCoords .oxHtOzOz originA (cvtI32F32 (sint 0x00000064#32)) = coordsA ∧
    cellCoords .ozHtOzOz originA (cvtI32F32 (sint 0x00000064#32)) =
      ⟨0x453B8000#32, 0x42C80000#32, 0x453B8000#32, 0x453B8000#32⟩ ∧
    cellCoords .oxHtOzOw originA (cvtI32F32 (sint 0x00000064#32)) =
      ⟨0x447A0000#32, 0x42C80000#32, 0x453B8000#32, 0x40E00000#32⟩ ∧
    cvtI32F32 (sint 0xFFFFFFFB#32) = 0xC0A00000#32 := by decide

/-- V16: lane 1 of `CCB` with the two large `htMin`, under either choice of lanes. -/
theorem test_ccb_large_ht_min :
    cvtI32F32 (sint 0x01000001#32) = 0x4B800000#32 ∧ cvtI32F32 (sint 0x80000000#32) = 0xCF000000#32 ∧
      statOf (exec (.ccb originA 0x01000001#32) State.reset) = some 0x00000002#32 := by decide

/-- V17. -/
theorem test_wrcc :
    stateOf (exec (.wrcc ⟨0x3FC00000#32, 0x3F800001#32, 0x80000000#32, 0x7F800000#32⟩) State.reset) =
      some { State.reset with
        cc := ⟨0x3FC00000#32, 0x3F800001#32, 0x80000000#32, 0x7F800000#32⟩, stat := 0x00000002#32,
        port := .answered ⟨.ok, Lanes.fill 0#32⟩ } := by decide

theorem test_rdcc_uninit : portOf (exec .rdcc (cellA 0x00000001#32)) = some (.answered ⟨.uninit, Lanes.fill 0#32⟩) := by decide

theorem test_rdcc_ok : portOf (exec .rdcc (cellA 0x00000002#32)) = some (.answered ⟨.ok, coordsA⟩) := by decide

/-! ## DEC, RDOUT -/

/-- V18: sign extension. -/
theorem test_sign_extension :
    vdecode someNaN ⟨0xFFFF#16, 0x8000#16, 0x7FFF#16, 0#16⟩ ⟨0x7FFF#16, 0x8000#16, 0xFFFF#16, 1#16⟩ (Lanes.fill 0#16)
      unitScale (Lanes.fill 0#32) =
    ⟨⟨0xBF800000#32, 0x46FFFE00#32, 0#32, 0#32⟩, ⟨0xC7000000#32, 0xC7000000#32, 0#32, 0#32⟩,
     ⟨0x46FFFE00#32, 0xBF800000#32, 0#32, 0#32⟩, ⟨0#32, 0x3F800000#32, 0#32, 0#32⟩⟩ := by decide

/-- V19: each of the twelve values lands in one place. -/
theorem test_transpose :
    vdecode someNaN ⟨1#16, 2#16, 3#16, 4#16⟩ ⟨5#16, 6#16, 7#16, 8#16⟩ ⟨9#16, 10#16, 11#16, 12#16⟩ unitScale (Lanes.fill 0#32) =
    ⟨⟨0x3F800000#32, 0x40A00000#32, 0x41100000#32, 0#32⟩, ⟨0x40000000#32, 0x40C00000#32, 0x41200000#32, 0#32⟩,
     ⟨0x40400000#32, 0x40E00000#32, 0x41300000#32, 0#32⟩, ⟨0x40800000#32, 0x41000000#32, 0x41400000#32, 0#32⟩⟩ := by decide

/-- V21: the full decode of `DEC.v1` on cell A, response and status. -/
theorem test_dec :
    portOf (step { cellA 0x00000003#32 with inbox := [.command ⟨0x00000017#32,
      ⟨0x7FFF0000#32, 0x00018000#32, 0x7FFF0000#32, 0xFFFF8000#32, 0x40000000#32, 0x0064FFFF#32⟩⟩] }) =
      some (.answered ⟨.ok, ⟨0x453E8000#32, 0x43B20000#32, 0x457B8080#32, 0x453B8000#32⟩⟩) ∧
    statOf (step { cellA 0x00000003#32 with inbox := [.command ⟨0x00000017#32, Payload.zero⟩] }) = some 0x00000007#32 := by
  decide

/-- V23b, V24 to V27: lane 3 of two minus zeros, the lost product, overflow, invalid operations, subnormals. -/
theorem test_dec_lane_corners :
    decodeLane 1#32 2#32 0 0xBF800000#32 0x80000000#32 = 0x80000000#32 ∧
    decodeLane 1#32 2#32 1 0x3D800100#32 0x4CBEBC20#32 = 0x4CBEBC20#32 ∧
    decodeLane 1#32 2#32 32767 0x7F7FFFFF#32 0#32 = 0x7F800000#32 ∧
    decodeLane 1#32 2#32 (-32768) 0x7F7FFFFF#32 0#32 = 0xFF800000#32 ∧
    decodeLane 1#32 2#32 1 0x7F800000#32 0xFF800000#32 = 2#32 ∧
    decodeLane 1#32 2#32 (-1) 0x7F800000#32 0xFF800000#32 = 0xFF800000#32 ∧
    decodeLane 0x7FC00000#32 2#32 0 0x7F800000#32 0xFF800000#32 = 2#32 ∧
    decodeLane 1#32 2#32 2 0x00000001#32 0#32 = 0x00000002#32 := by decide +kernel

/-- V29: `DEC` after `SVB` alone. -/
theorem test_dec_uninit :
    stateOf (exec (.dec 0 (Lanes.fill 0#16) (Lanes.fill 0#16) (Lanes.fill 0#16)) (cellA 0x00000001#32)) =
      some { cellA 0x00000011#32 with port := .answered ⟨.uninit, Lanes.fill 0#32⟩ } := by decide

/-- V21 and V29: `RDOUT` of a written vertex, and before any `DEC`. -/
theorem test_rdout :
    portOf (exec (.rdout 2) { cellA 0x00000007#32 with
      out := ⟨Lanes.fill 0#32, Lanes.fill 1#32, coordsA, Lanes.fill 3#32⟩ }) = some (.answered ⟨.ok, coordsA⟩) ∧
    portOf (exec (.rdout 2) (cellA 0x00000003#32)) = some (.answered ⟨.uninit, Lanes.fill 0#32⟩) := by decide

/-! ## NOP, RDSTAT, errors, reset -/

/-- V30. -/
theorem test_nop :
    stateOf (exec .nop (cellA 0x0000001B#32)) = some { cellA 0x0000001B#32 with port := .answered ⟨.ok, Lanes.fill 0#32⟩ } := by decide

/-- V31: reading clears nothing. -/
theorem test_rdstat :
    stateOf (exec .rdstat (cellA 0x0000001F#32)) = some { cellA 0x0000001F#32 with
      port := .answered ⟨.ok, ⟨0x0000001F#32, 0#32, 0#32, 0#32⟩⟩ } := by decide

/-- V33: an illegal `DEC` whose operands are unwritten is `ILL`, not `UNINIT`. -/
theorem test_ill_before_uninit :
    stateOf (step (given 0x00000047#32 Payload.zero)) =
      some { State.reset with stat := 0x00000008#32, port := .answered ⟨.ill, Lanes.fill 0#32⟩ } := by decide

/-- V34. -/
theorem test_reset :
    statOf (step { cellA 0x0000001F#32 with inbox := [.reset] }) = some 0#32 ∧
      portOf (step { cellA 0x0000001F#32 with inbox := [.reset] }) = some .silent := by decide

/-- R93 and R25: after power no command runs, and `STAT[31:5]` are zero. -/
theorem test_power :
    ∃ t, step { cellA 0x0000001F#32 with inbox := [.powerOn, .command ⟨0#32, Payload.zero⟩] } = .next t ∧
      step t = .refused .beforeReset ∧ t.stat.getLsbD 5 = false :=
  ⟨_, rfl, rfl, by simp [powerUp, takeEvent, statDefined]⟩

/-! ## Assembler (30_encoding.md R53) -/

/-- Decimal literals are rounded once: 2048.0, 0.1, 1e-45 and 3.5e38 by hand from 00_scope.md R7. -/
theorem test_float_literals :
    floatLit (.decimal false 20480 (-1)) = 0x45000000#32 ∧ floatLit (.decimal true 1 (-1)) = 0xBDCCCCCD#32 ∧
      floatLit (.decimal false 1 (-45)) = 0x00000001#32 ∧ floatLit (.decimal false 35 37) = 0x7F800000#32 := by decide

/-- A text with its round brackets read as braces, which no string of these files may hold. -/
def braced (s : String) : List Char :=
  s.toList.map fun c => if c = '(' then Char.ofNat 123 else if c = ')' then Char.ofNat 125 else c

/-- P1 lines 1 and 2 as LDCELL. -/
theorem test_assemble_ldcell :
    assembleText "LDCELL 2048.0, 256, 1000.0, 5.0, 3000.0, 7.0, 100".toList =
      .ok [⟨0x00000001#32, ⟨0x45000000#32, 0x00000100#32, 0#32, 0#32, 0#32, 0#32⟩⟩,
        ⟨0x00000004#32, ⟨0x447A0000#32, 0x40A00000#32, 0x453B8000#32, 0x40E00000#32, 0x00000064#32, 0#32⟩⟩] := by decide

/-- P2 line 8, with 16-bit patterns and a vertex select. -/
theorem test_assemble_dec :
    assembleText (braced "DEC.v2 (-1, -32768, 32767, 0), (0x7FFF, 0x8000, 0xFFFF, 1), (0, 0, 0, 0)") =
      .ok [⟨0x00000027#32, ⟨0x8000FFFF#32, 0x00007FFF#32, 0x80007FFF#32, 0x0001FFFF#32, 0#32, 0#32⟩⟩] := by decide

/-- A missing vertex is `.v0`; a vertex above 3, a value out of range, a select on `NOP` and a stray operand are refused; an exact
pattern and a power of ten (V24) are read. -/
theorem test_assemble_literals :
    assembleText "RDOUT".toList = .ok [⟨0x00000008#32, Payload.zero⟩] ∧
    assembleText "RDOUT.v4".toList = .error .vertexRange ∧
    assembleText "SVB 1.0, 2147483648".toList = .error .int32Range ∧
    assembleText "LDCELL 1.0, 1, 0, 0, 0, 0, -2147483649".toList = .error .int32Range ∧
    assembleText (braced "DEC (0, 0, 0, 0), (0, 0, 0, 0), (0, 0, 0, 32768)") = .error .int16Range ∧
    assembleText "NOP.v1".toList = .error .malformed ∧
    assembleText "RDSTAT 1".toList = .error .malformed ∧
    assembleText "WRCC f32:0x7FC00001, -0.0, 1.0e8, 0".toList =
      .ok [⟨0x00000005#32, ⟨0x7FC00001#32, 0x80000000#32, 0x4CBEBC20#32, 0#32, 0#32, 0#32⟩⟩] := by decide

/-! ## Witnesses: the hypotheses of each statement of Certificates/Slice0/Obligations.lean that has any, met together -/

theorem witness_presents : Presents (given 0x00000047#32 Payload.zero) ⟨0x00000047#32, Payload.zero⟩ [] := ⟨rfl, rfl⟩

/-- LegalityIsOfTheCommandWord: a word that fails one condition each, just past its boundary. -/
theorem witness_illegal_word :
    [0x00000040#32, 0x0000000A#32, 0x00000019#32].all (fun w : Word =>
      decide (¬ (w.toNat / 2 ^ 6 = 0 ∧ w.toNat % 16 ≤ 9 ∧
        (w.toNat / 16 % 4 = 0 ∨ w.toNat % 16 = 7 ∨ w.toNat % 16 = 8)))) = true := by decide

/-- EncodeKeepsReadWords: the last word read by `DEC`. -/
theorem witness_payload_read :
    (∃ i, decode ⟨0x00000037#32, Payload.zero⟩ = .ok i) ∧ (5 : Fin 6).val < payloadRead ((0x00000037#32 : Word).toNat % 16) :=
  ⟨⟨_, rfl⟩, by decide⟩

/-- IgnoredPayloadHasNoEffect: two payloads of `SVB` that agree on the two words it reads and on no other. -/
theorem witness_ignored_payload :
    ∀ w : Fin 6, w.val < payloadRead ((0x00000001#32 : Word).toNat % 16) →
      (Payload.mk 1#32 2#32 3#32 4#32 5#32 6#32).word w = (Payload.mk 1#32 2#32 0#32 0#32 0#32 0#32).word w := by decide

/-- DecAssemblesLanesFromWords, at the top bit of the top lane. -/
theorem witness_lane_bit :
    (15 < 16) ∧ ((lanesOfPair 0#32 0x80000000#32).get 3).getLsbD 15 = (0x80000000#32 : Word).getLsbD (16 * (3 % 2) + 15) := by
  decide

theorem witness_step_runs :
    Presents (given 0x00000009#32 Payload.zero) ⟨0x00000009#32, Payload.zero⟩ [] ∧
      decode ⟨0x00000009#32, Payload.zero⟩ = .ok .rdstat := ⟨⟨rfl, rfl⟩, rfl⟩

/-- FailedCommandWritesOneStickyBit and ErrorRecordedExactlyOnError: an `ILL` step. -/
theorem witness_failed_ill :
    ∃ t r, Presents (given 0x0000000A#32 Payload.zero) ⟨0x0000000A#32, Payload.zero⟩ [] ∧
      step (given 0x0000000A#32 Payload.zero) = .next t ∧ t.port = .answered ⟨.ill, r⟩ := ⟨_, _, ⟨rfl, rfl⟩, rfl, rfl⟩

/-- FailedCommandWritesOneStickyBit and ErrorRecordedExactlyOnError: an `UNINIT` step. -/
theorem witness_failed_uninit :
    ∃ t r, Presents (given 0x00000003#32 Payload.zero) ⟨0x00000003#32, Payload.zero⟩ [] ∧
      step (given 0x00000003#32 Payload.zero) = .next t ∧ t.port = .answered ⟨.uninit, r⟩ := ⟨_, _, ⟨rfl, rfl⟩, rfl, rfl⟩

/-- UninitExactlyWhenValidBitClear: each disjunct of `needsUnwritten`, with every other valid bit set. -/
theorem witness_needs_unwritten :
    needsUnwritten 7 0x00000006#32 ∧ needsUnwritten 7 0x00000005#32 ∧ needsUnwritten 3 0x00000006#32 ∧
      needsUnwritten 6 0x00000005#32 ∧ needsUnwritten 8 0x00000003#32 ∧ ¬ needsUnwritten 7 0x00000003#32 ∧
      Presents (given 0x00000007#32 Payload.zero) ⟨0x00000007#32, Payload.zero⟩ [] ∧ legal 0x00000007#32 = true := by
  simp only [needsUnwritten]
  exact ⟨by decide, by decide, by decide, by decide, by decide, by decide, ⟨rfl, rfl⟩, by decide⟩

/-- CommandBeforeResetIsRefused. -/
theorem witness_unreset :
    ∃ s : State, s.phase = .unreset ∧ s.inbox = .command ⟨0#32, Payload.zero⟩ :: [] :=
  ⟨{ given 0#32 Payload.zero with phase := .unreset }, rfl, rfl⟩

/-- IdleStepHoldsAllState. -/
theorem witness_idle : (cellA 0x0000001F#32).inbox = [] := rfl

/-- PowerLeavesEveryRegisterFree. -/
theorem witness_power :
    ∃ s : State, s.inbox = .powerOn :: [.reset] := ⟨{ cellA 0x0000001F#32 with inbox := [.powerOn, .reset] }, rfl⟩

/-- ResetClearsStatus and ResetWithCommandTakesOneOrder, with every bit of `STAT` set before. -/
theorem witness_reset_event :
    (∃ s : State, s.stat = 0x0000001F#32 ∧ s.inbox = .reset :: []) ∧
      ∃ s : State, s.stat = 0x0000001F#32 ∧ s.inbox = .commandWithReset ⟨0x00000009#32, Payload.zero⟩ :: [] :=
  ⟨⟨{ cellA 0x0000001F#32 with inbox := [.reset] }, rfl, rfl⟩,
    ⟨{ cellA 0x0000001F#32 with inbox := [.commandWithReset ⟨0x00000009#32, Payload.zero⟩] }, rfl, rfl⟩⟩

/-- ReservedStatusBitsStayZero and StatusBitsClearedOnlyByReset: a step that sets a sticky bit while another is set. -/
theorem witness_status_step :
    ∃ s t : State, ReservedStatZero s ∧ step s = .next t ∧ (∀ e rest, s.inbox = e :: rest → isResetEvent e = false) ∧
      s.stat.getLsbD 4 = true :=
  ⟨{ given 0x0000000A#32 Payload.zero with stat := 0x00000010#32 }, _,
    fun i h => by
      have : (0x00000010#32 : Word) = BitVec.twoPow 32 4 := rfl
      simp [this, BitVec.getLsbD_twoPow]
      omega,
    rfl, fun e rest h => by cases h; rfl, rfl⟩

/-- StatusAfterLegalCommand and RegistersWrittenOnlyByTheirCommands: a `WRSV` that changes `SV`. -/
theorem witness_wrsv_changes :
    ∃ t, Presents (given 0x00000002#32 ⟨1#32, 2#32, 3#32, 4#32, 0#32, 0#32⟩)
        ⟨0x00000002#32, ⟨1#32, 2#32, 3#32, 4#32, 0#32, 0#32⟩⟩ [] ∧
      decode ⟨0x00000002#32, ⟨1#32, 2#32, 3#32, 4#32, 0#32, 0#32⟩⟩ = .ok (.wrsv ⟨1#32, 2#32, 3#32, 4#32⟩) ∧
      step (given 0x00000002#32 ⟨1#32, 2#32, 3#32, 4#32, 0#32, 0#32⟩) = .next t ∧ t.sv ≠ Lanes.fill 0#32 :=
  ⟨_, ⟨rfl, rfl⟩, rfl, rfl, by decide⟩

/-- RegistersWrittenOnlyByTheirCommands: a `WRCC` that changes `CC`. -/
theorem witness_wrcc_changes :
    ∃ t, step (given 0x00000005#32 ⟨1#32, 2#32, 3#32, 4#32, 0#32, 0#32⟩) = .next t ∧ t.cc ≠ Lanes.fill 0#32 :=
  ⟨_, rfl, by decide⟩

/-- RegistersWrittenOnlyByTheirCommands: a `DEC` that changes `OUT`. -/
theorem witness_dec_changes :
    ∃ t, step { given 0x00000007#32 Payload.zero with cc := coordsA, stat := 0x00000003#32 } = .next t ∧
      t.out ≠ Lanes.fill (Lanes.fill 0#32) := ⟨_, rfl, by decide⟩

/-- UnwrittenContentsAreUnobservable: two states that differ in an unwritten `CC` and agree on a written `SV`. -/
theorem witness_agree :
    AgreeOnWritten (cellA 0x00000001#32) { cellA 0x00000001#32 with cc := Lanes.fill 1#32 } ∧
      (cellA 0x00000001#32).cc ≠ Lanes.fill 1#32 :=
  ⟨⟨rfl, rfl, rfl, rfl, rfl, fun _ => rfl, fun h => absurd h (by decide), fun _ => rfl⟩, by decide⟩

/-- RdsvReturnsLanesOrFails, RdccReturnsLanesOrFails, RdoutReturnsVertexOrFails, DecDecodesFourVertices, DecFailsUnlessBothWritten:
each valid bit set and each clear. -/
theorem witness_valid_bits :
    (cellA 0x00000007#32).stat.getLsbD 0 = true ∧ (cellA 0x00000007#32).stat.getLsbD 1 = true ∧
      (cellA 0x00000007#32).stat.getLsbD 2 = true ∧ (cellA 0x00000006#32).stat.getLsbD 0 = false ∧
      (cellA 0x00000005#32).stat.getLsbD 1 = false ∧ (cellA 0x00000003#32).stat.getLsbD 2 = false := by decide

/-- FmulRoundsTheExactProduct and FaddRoundsTheExactSum: the largest value, whose square and double overflow, the least, and the zero
sum of two minus zeros. -/
theorem witness_finite :
    isFinite 0x7F7FFFFF#32 = true ∧ isFinite 0x00000001#32 = true ∧ isFinite 0x80000000#32 = true ∧
      value 0x80000000#32 + value 0x80000000#32 = 0 := by
  refine ⟨by decide, by decide, by decide, ?_⟩
  rw [value, show units 0x80000000#32 = 0 by decide]
  norm_num

/-- SmallIntegersConvertExactly, at both ends. -/
theorem witness_small_integers : (16777216 : Int).natAbs ≤ 2 ^ 24 ∧ (-16777216 : Int).natAbs ≤ 2 ^ 24 := by decide

/-- ExactDivRoundsTheQuotient, ReciprocalScaleWithinOneUlp: V10's operand, and one whose result is the least normal exponent. -/
theorem witness_scaling :
    isFinite 0x446A3FF4#32 = true ∧ isFinite (qscale .f32Recip 0#32 0x446A3FF4#32) = true ∧
      1 ≤ expField (qscale .f32Recip 0#32 0x446A3FF4#32) ∧ isFinite 0x08000000#32 = true ∧
      isFinite (qscale .f32Recip 0#32 0x08000000#32) = true ∧ expField (qscale .f32Recip 0#32 0x08000000#32) = 1 := by decide

/-- ReciprocalScaleRoundsTheProduct, where the result is a subnormal (V9e) and where a negative operand underflows to zero. -/
theorem witness_reciprocal :
    isFinite 0x00800000#32 = true ∧ expField (qscale .f32Recip 0#32 0x00800000#32) = 0 ∧ isFinite 0x80000001#32 = true ∧
      qscale .f32Recip 0#32 0x80000001#32 = 0x80000000#32 := by decide

/-- QscaleOfSpecialValues. -/
theorem witness_special_values : isNaN 0x7F800001#32 = true ∧ isInf 0xFF800000#32 = true ∧ isZero 0x80000000#32 = true := by
  decide

/-- FmulSpecialCases, each clause on the operand patterns 0, the least subnormal, ∞ and a NaN. -/
theorem witness_fmul_cases :
    isNaN 0x7F800001#32 = true ∧ (isZero 0x80000000#32 = true ∧ isInf 0x7F800000#32 = true) ∧
      (isInf 0x7F800000#32 = true ∧ isNaN 0x00000001#32 = false ∧ isZero 0x00000001#32 = false) ∧
      (isZero 0x80000000#32 = true ∧ isFinite 0x7F7FFFFF#32 = true) := by decide

/-- FaddSpecialCases, each clause. -/
theorem witness_fadd_cases :
    isNaN 0xFFFFFFFF#32 = true ∧ (isInf 0x7F800000#32 = true ∧ isInf 0xFF800000#32 = true ∧
      signBit 0x7F800000#32 ≠ signBit 0xFF800000#32) ∧
      (isNaN 0x7F800000#32 = false ∧ signBit 0x7F800000#32 = signBit 0x7F800000#32) ∧ isFinite 0x7F7FFFFF#32 = true ∧
      (isZero 0x80000000#32 = true ∧ isFinite 0x00000001#32 = true ∧ isZero 0x00000001#32 = false) := by decide

/-- ScaledLaneIsRoundedProduct, PadLaneOfEveryVertex, ZeroInputsDecodeToZero: the draws of the block are NaNs, cell A's scale is
finite, an infinite `SV[3]` and a NaN `CC[3]`. -/
theorem witness_pad_lane :
    (∀ i, isNaN (someNaN i) = true) ∧ (∀ j, isFinite (scaleA.get j) = true) ∧ isNaN coordsA.l3 = false ∧
      isFinite 0x7F800000#32 = false ∧ isNaN 0x7F800001#32 = true :=
  ⟨fun _ => (by decide : isNaN 0x7FC00000#32 = true), by decide, by decide, by decide, by decide⟩

/-- AssembledCommandsAreLegal and LdcellIsSvbThenCcb. -/
theorem witness_assembled :
    (∃ x, assemble (.svb (.decimal false 2048 0) 256) = .ok [x]) ∧ (∃ y, assemble (.ccb (Lanes.fill (.bits 0#32)) (-1)) = .ok [y]) ∧
      (∃ cs, assemble (.dec none (Lanes.fill (.int (-1))) (Lanes.fill (.int 1)) (Lanes.fill (.bits 0#16))) = .ok cs ∧ cs ≠ []) ∧
      assembleText "NOP".toList = .ok [⟨0#32, Payload.zero⟩] :=
  ⟨⟨_, rfl⟩, ⟨_, rfl⟩, ⟨_, rfl, by decide⟩, by decide⟩

/-- AssemblerRefusesWhatDoesNotFit: the ends of both integer ranges and the values just past them, a pattern, the least and the
greatest vertex, a missing one, and the first that does not exist. -/
theorem witness_literals :
    (Int32Fits 2147483647 ∧ Int32Fits (-2147483648) ∧ ¬ Int32Fits 2147483648 ∧ ¬ Int32Fits (-2147483649)) ∧
      (HalfFits (.int 32767) ∧ HalfFits (.int (-32768)) ∧ HalfFits (.bits 0xFFFF#16) ∧ ¬ HalfFits (.int 32768) ∧
        ¬ HalfFits (.int (-32769))) ∧
      (vertexOf none < 4 ∧ vertexOf (some 0) < 4 ∧ vertexOf (some 3) < 4 ∧ ¬ vertexOf (some 4) < 4) := by
  simp only [Int32Fits, HalfFits]
  decide

/-- AssemblerRefusesWhatDoesNotFit: a `DEC` all of whose lanes fit, at the ends of the range, and one whose last lane alone does
not. -/
theorem witness_dec_lanes :
    (∀ j, HalfFits ((Lanes.fill (.int 32767)).get j) ∧ HalfFits ((Lanes.fill (.int (-32768))).get j) ∧
        HalfFits ((Lanes.fill (.bits 0xFFFF#16)).get j)) ∧
      ∃ j, ¬ (HalfFits ((Lanes.fill (.int 0)).get j) ∧ HalfFits ((Lanes.fill (.int 0)).get j) ∧
        HalfFits ((Lanes.mk (.int 0) (.int 0) (.int 0) (.int 32768)).get j)) := by
  refine ⟨fun j => ?_, 3, fun h => absurd h.2.2 (by simp only [Lanes.get, HalfFits]; decide)⟩
  match j with
  | 0 | 1 | 2 | 3 => simp only [Lanes.get, Lanes.fill, HalfFits]; decide

end Sys2Proof.Tests
end

section
/-! SUPPORT. Proofs of the statements of 00_scope.md: the one response of each command (R10), and what the arithmetic of binary32 rounds
to and gives in its special cases (R7). -/

namespace Sys2Proof.Proofs.Scope

open Sys2Proof.Machine Sys2Proof.Safety Sys2Proof.Laws

/-! ## The response of a command -/

/-- Every legal command word is one of the opcode map (30_encoding.md R44, R46). -/
theorem decode_legal {c : Command} (h : legal c.cmd = true) : ∃ i, decode c = .ok i := by
  obtain ⟨cmd, d⟩ := c
  rcases Decode.legal_cases h with rfl | rfl | rfl | rfl | rfl | rfl | rfl | ⟨k, rfl⟩ | ⟨k, rfl⟩ | rfl
  · exact ⟨_, Decode.decode_nop d⟩
  · exact ⟨_, Decode.decode_svb d⟩
  · exact ⟨_, Decode.decode_wrsv d⟩
  · exact ⟨_, Decode.decode_rdsv d⟩
  · exact ⟨_, Decode.decode_ccb d⟩
  · exact ⟨_, Decode.decode_wrcc d⟩
  · exact ⟨_, Decode.decode_rdcc d⟩
  · exact ⟨_, Decode.decode_dec k d⟩
  · exact ⟨_, Decode.decode_rdout k d⟩
  · exact ⟨_, Decode.decode_rdstat d⟩

/-- What a legal command drives: `OK` with some words, or `UNINIT` with four zero words (30_encoding.md R50). -/
def OkOrUninit (p : PortOut) : Prop :=
  (∃ r, p = .answered ⟨.ok, r⟩) ∨ p = .answered ⟨.uninit, Lanes.fill 0#32⟩

theorem okOrUninit_respond_ok (r : Lanes Word) (s : State) : OkOrUninit (respond .ok r s).port := .inl ⟨r, rfl⟩

theorem okOrUninit_fail_uninit (s : State) : OkOrUninit (fail .uninit s).port := .inr rfl

/-- A command that needs a valid bit: `t` if it is 1, `UNINIT` if not (60_exceptions.md R80). -/
theorem okOrUninit_guarded (valid : Bool) (s : State) {t : State} (ht : OkOrUninit t.port) :
    OkOrUninit (if valid then t else fail .uninit s).port := by
  cases valid
  · exact okOrUninit_fail_uninit s
  · exact ht

/-- No instruction answers `ILL`, and one that fails answers zero words (30_encoding.md R50). -/
theorem exec_okOrUninit {i : Instr} {s t : State} (h : exec i s = .next t) : OkOrUninit t.port := by
  cases i <;> cases h
  case nop | svb | wrsv | ccb | wrcc | rdstat => exact okOrUninit_respond_ok _ _
  case rdsv | rdcc | rdout | dec => exact okOrUninit_guarded _ _ (okOrUninit_respond_ok _ _)

/-- The response of any command: `ILL` exactly for an illegal word, and zero words with an error (60_exceptions.md R81, R82). -/
theorem runCommand_response {c : Command} {s t : State} (h : runCommand c s = .next t) :
    ∃ r : Response, t.port = .answered r ∧ (r.rc ≠ .ok → r.r = Lanes.fill 0#32) ∧
      (r.rc = .ill ↔ legal c.cmd = false) := by
  cases hl : legal c.cmd with
  | false =>
    rw [Ops.runCommand_illegal hl] at h
    cases h
    exact ⟨⟨.ill, Lanes.fill 0#32⟩, rfl, fun _ => rfl, by simp⟩
  | true =>
    obtain ⟨i, hi⟩ := decode_legal hl
    rw [Ops.runCommand_ok hi] at h
    rcases exec_okOrUninit h with ⟨r, hr⟩ | hr
    · exact ⟨⟨.ok, r⟩, hr, fun hne => absurd rfl hne, by simp⟩
    · exact ⟨⟨.uninit, Lanes.fill 0#32⟩, hr, fun _ => rfl, by simp⟩

/-- Code 3 is reserved (30_encoding.md R50). -/
theorem respBits_ne_three (rc : RespCode) : respBits rc ≠ 3#2 := by cases rc <;> decide

/-- Settles O10: the step is `runCommand`, which keeps phase and inbox (`Ran`) and answers as `runCommand_response` says. -/
theorem everyCommandGetsOneResponse : Obligations.EveryCommandGetsOneResponse := by
  intro s c rest ⟨hphase, hinbox⟩
  obtain ⟨t, ht, hran⟩ := Ops.runCommand_ran c (takeEvent rest s)
  obtain ⟨r, hport, hzero, hill⟩ := runCommand_response ht
  exact ⟨t, r, (Ops.step_command hphase hinbox).trans ht, hport, hran.inbox, hran.phase.trans hphase,
    respBits_ne_three r.rc, hzero, hill⟩

/-! ## Kinds of pattern -/

theorem isNaN_of_isInf {x : Word} (h : isInf x = true) : isNaN x = false := by
  rw [Float.isInf_iff] at h
  rw [← Bool.not_eq_true, Float.isNaN_iff]
  omega

theorem isZero_of_isInf {x : Word} (h : isInf x = true) : isZero x = false := by
  rw [Float.isInf_iff, infBits] at h
  rw [← Bool.not_eq_true, Float.isZero_iff]
  omega

theorem isFinite_of_isZero {x : Word} (h : isZero x = true) : isFinite x = true := by
  rw [Float.isZero_iff] at h
  rw [Float.isFinite_iff, infBits]
  omega

theorem magUnits_eq_zero_iff (x : Word) : magUnits x = 0 ↔ isZero x = true := by
  unfold magUnits isZero
  split <;> simp [*]

theorem units_eq_zero_iff (x : Word) : units x = 0 ↔ isZero x = true := by
  rw [← magUnits_eq_zero_iff, units]
  split <;> omega

theorem natAbs_units (x : Word) : (units x).natAbs = magUnits x := by
  rw [units]
  split <;> omega

theorem units_neg_iff {x : Word} (h : units x ≠ 0) : units x < 0 ↔ signBit x = true := by
  have hpos : 0 < magUnits x := by
    rw [← natAbs_units]
    exact Int.natAbs_pos.2 h
  cases hs : signBit x <;> simp [units, hs, hpos]

/-! ## Exact values with a sign -/

theorem signFactor_xor (p q : Bool) :
    Rounding.signFactor (p ^^ q) = Rounding.signFactor p * Rounding.signFactor q := by
  cases p <;> cases q <;> simp [Rounding.signFactor]

/-- A whole number is its sign times its magnitude; the sign given to 0 does not matter. -/
theorem signFactor_mul_natAbs {neg : Bool} {n : ℤ} (h : n ≠ 0 → neg = decide (n < 0)) :
    Rounding.signFactor neg * (n.natAbs : ℚ) = n := by
  rcases lt_trichotomy n 0 with hn | rfl | hn
  · rw [h hn.ne, decide_eq_true hn, Rounding.signFactor, Nat.cast_natAbs, abs_of_neg hn]
    simp
  · simp
  · rw [h hn.ne', decide_eq_false hn.not_gt, Rounding.signFactor, Nat.cast_natAbs, abs_of_pos hn]
    simp

/-- A whole number of units, rounded with its sign, is rounded correctly (00_scope.md R7). -/
theorem round32_units_correct {neg : Bool} {n : ℤ} (h : n ≠ 0 → neg = decide (n < 0)) :
    CorrectlyRounded ((n : ℚ) / 2 ^ 149) (round32 neg n.natAbs 1) := by
  have hr := Rounding.round32_correct neg n.natAbs one_pos
  rwa [Nat.cast_one, div_one, signFactor_mul_natAbs h] at hr

/-- A zero magnitude rounds to the zero of the sign given. -/
theorem round32_zero (neg : Bool) (d : Nat) : round32 neg 0 d = packSign neg 0 := by
  simp [round32, roundMag, roundHalfEven, ulpShift]

theorem isZero_packSign_zero (neg : Bool) : isZero (packSign neg 0) = true := by cases neg <;> decide

/-! ## `fmul32` -/

theorem value_mul (a b : Word) :
    value a * value b = Rounding.signFactor (signBit a ^^ signBit b) *
      (((magUnits a * magUnits b : ℕ) : ℚ) / ((2 ^ 149 : ℕ) : ℚ)) / 2 ^ 149 := by
  rw [Rounding.value_eq, Rounding.value_eq, signFactor_xor]
  push_cast
  ring

theorem fmul32_comm (nan a b : Word) : fmul32 nan a b = fmul32 nan b a := by
  simp only [fmul32, Bool.or_comm, Bool.xor_comm, Nat.mul_comm]

theorem fmul32_of_isNaN (nan : Word) {a : Word} (b : Word) (h : isNaN a = true) : fmul32 nan a b = nan := by
  simp [fmul32, h]

theorem fmul32_isInf_isZero (nan : Word) {a b : Word} (ha : isInf a = true) (hb : isZero b = true) :
    fmul32 nan a b = nan := by
  simp [fmul32, ha, hb]

theorem fmul32_isInf_nonzero (nan : Word) {a b : Word} (ha : isInf a = true) (hn : isNaN b = false)
    (hz : isZero b = false) : fmul32 nan a b = packSign (signBit a ^^ signBit b) infBits := by
  simp [fmul32, ha, isNaN_of_isInf ha, isZero_of_isInf ha, hn, hz]

theorem fmul32_isZero_isFinite (nan : Word) {a b : Word} (ha : isZero a = true) (hb : isFinite b = true) :
    fmul32 nan a b = packSign (signBit a ^^ signBit b) 0 := by
  rw [Float.fmul32_finite nan (isFinite_of_isZero ha) hb, (magUnits_eq_zero_iff a).2 ha, Nat.zero_mul, round32_zero]

/-- Settles O38: the product's magnitude is `magUnits a * magUnits b / 2 ^ 149` units, which `round32` rounds correctly. -/
theorem fmulRoundsTheExactProduct : Obligations.FmulRoundsTheExactProduct := by
  intro nan a b ha hb
  rw [Float.fmul32_finite nan ha hb, value_mul]
  exact ⟨Rounding.round32_correct _ _ (by positivity), Float.signBit_round32 _ _ _⟩

/-- Settles O46: one equation of `fmul32` for each special case, and the other operand's by commutativity. -/
theorem fmulSpecialCases : Obligations.FmulSpecialCases := by
  intro nan a b
  refine ⟨?_, ?_, ?_, ?_⟩
  · rintro (ha | hb)
    · exact fmul32_of_isNaN nan b ha
    · rw [fmul32_comm, fmul32_of_isNaN nan a hb]
  · rintro (⟨ha, hb⟩ | ⟨ha, hb⟩)
    · rw [fmul32_comm, fmul32_isInf_isZero nan hb ha]
    · exact fmul32_isInf_isZero nan ha hb
  · have hpack (neg : Bool) : isInf (packSign neg infBits) = true ∧ signBit (packSign neg infBits) = neg :=
      ⟨Float.isInf_packSign neg, Float.signBit_packSign neg (by decide)⟩
    rintro (⟨ha, hn, hz⟩ | ⟨hb, hn, hz⟩)
    · rw [fmul32_isInf_nonzero nan ha hn hz]
      exact hpack _
    · rw [fmul32_comm, fmul32_isInf_nonzero nan hb hn hz, Bool.xor_comm]
      exact hpack _
  · have hpack (neg : Bool) : isZero (packSign neg 0) = true ∧ signBit (packSign neg 0) = neg :=
      ⟨isZero_packSign_zero neg, Float.signBit_packSign neg (by decide)⟩
    rintro (⟨hz, hf⟩ | ⟨hz, hf⟩)
    · rw [fmul32_isZero_isFinite nan hz hf]
      exact hpack _
    · rw [fmul32_comm, fmul32_isZero_isFinite nan hz hf, Bool.xor_comm]
      exact hpack _

/-! ## `fadd32` and the integer conversion -/

theorem value_add (a b : Word) : value a + value b = ((units a + units b : ℤ) : ℚ) / 2 ^ 149 := by
  rw [value, value, Int.cast_add, add_div]

theorem value_add_eq_zero_iff (a b : Word) : value a + value b = 0 ↔ units a + units b = 0 := by
  rw [value_add, div_eq_zero_iff, Int.cast_eq_zero]
  simp

theorem sumSign_of_ne_zero {a b : Word} (h : units a + units b ≠ 0) :
    sumSign a b = decide (units a + units b < 0) := if_neg h

theorem sumSign_of_eq_zero {a b : Word} (h : units a + units b = 0) :
    sumSign a b = (signBit a && signBit b) := if_pos h

theorem sumSign_comm (a b : Word) : sumSign a b = sumSign b a := by
  simp only [sumSign, add_comm, Bool.and_comm]

theorem fadd32_comm_of_isFinite (nan : Word) {a b : Word} (ha : isFinite a = true) (hb : isFinite b = true) :
    fadd32 nan a b = fadd32 nan b a := by
  rw [Float.fadd32_finite nan ha hb, Float.fadd32_finite nan hb ha, sumSign_comm, add_comm]

/-- Adding a zero to a nonzero finite value gives that value: it is its own rounding. -/
theorem fadd32_isZero_left (nan : Word) {a b : Word} (ha : isZero a = true) (hb : isFinite b = true)
    (hz : isZero b = false) : fadd32 nan a b = b := by
  have hsum : units a + units b = units b := by rw [(units_eq_zero_iff a).2 ha, zero_add]
  have hne : units b ≠ 0 := by simp [units_eq_zero_iff, hz]
  have hsign : sumSign a b = signBit b := by
    rw [sumSign_of_ne_zero (by rwa [hsum]), hsum, Bool.eq_iff_iff, decide_eq_true_iff, units_neg_iff hne]
  rw [Float.fadd32_finite nan (isFinite_of_isZero ha) hb, hsum, hsign, natAbs_units, Float.round32_self hb]

theorem fadd32_isInf_left (nan : Word) {a b : Word} (ha : isInf a = true) (hn : isNaN b = false)
    (hs : isInf b = true → signBit b = signBit a) : fadd32 nan a b = a := by
  have hopp : (isInf b && (signBit a != signBit b)) = false := by
    cases hb : isInf b
    · rfl
    · simp [hs hb]
  simp [fadd32, isNaN_of_isInf ha, ha, hn, hopp]

theorem fadd32_isInf_right (nan : Word) {a b : Word} (hb : isInf b = true) (ha : isFinite a = true) :
    fadd32 nan a b = b := by
  obtain ⟨hn, hi⟩ := (Float.isFinite_iff_not a).1 ha
  simp [fadd32, hn, hi, hb, isNaN_of_isInf hb]

theorem fadd32_opposite_isInf (nan : Word) {a b : Word} (ha : isInf a = true) (hb : isInf b = true)
    (hs : signBit a ≠ signBit b) : fadd32 nan a b = nan := by
  simp [fadd32, ha, hb, hs]

theorem fadd32_of_isNaN (nan : Word) {a b : Word} (h : isNaN a = true ∨ isNaN b = true) : fadd32 nan a b = nan := by
  have hor : (isNaN a || isNaN b) = true := Bool.or_eq_true_iff.2 h
  simp [fadd32, hor]

/-- Settles O39: the sum is a whole number of units, which `round32` rounds correctly; a zero sum has the sign of `sumSign`. -/
theorem faddRoundsTheExactSum : Obligations.FaddRoundsTheExactSum := by
  intro nan a b ha hb
  rw [Float.fadd32_finite nan ha hb]
  constructor
  · rw [value_add]
    exact round32_units_correct sumSign_of_ne_zero
  · intro h
    rw [value_add_eq_zero_iff] at h
    rw [sumSign_of_eq_zero h, h, Int.natAbs_zero, round32_zero]
    cases signBit a <;> cases signBit b <;> decide

/-- Settles O47: one equation of `fadd32` for each special case, the zero on the right by commutativity. -/
theorem faddSpecialCases : Obligations.FaddSpecialCases := by
  intro nan a b
  refine ⟨fadd32_of_isNaN nan, fadd32_opposite_isInf nan, fadd32_isInf_left nan, fadd32_isInf_right nan,
    fadd32_isZero_left nan, ?_⟩
  intro hb ha hz
  rw [fadd32_comm_of_isFinite nan ha (isFinite_of_isZero hb), fadd32_isZero_left nan hb ha hz]

/-- The conversion takes the integer as a whole number of units. -/
theorem cvtI32F32_eq (n : ℤ) : cvtI32F32 n = round32 (decide (n < 0)) (2 ^ 149 * n).natAbs 1 := by
  simp [cvtI32F32, Int.natAbs_mul]

/-- The conversion of any integer is its correct rounding (00_scope.md R7). -/
theorem cvtI32F32_correct (n : ℤ) : CorrectlyRounded (n : ℚ) (cvtI32F32 n) := by
  have hsign : decide (n < 0) = decide (2 ^ 149 * n < 0) := by
    rw [Bool.eq_iff_iff, decide_eq_true_iff, decide_eq_true_iff]
    omega
  have hvalue : (n : ℚ) = ((2 ^ 149 * n : ℤ) : ℚ) / 2 ^ 149 := by
    push_cast
    ring
  rw [cvtI32F32_eq, hvalue]
  exact round32_units_correct fun _ => hsign

/-- Settles O40. -/
theorem integerConversionRounds : Obligations.IntegerConversionRounds := fun w => cvtI32F32_correct w.toInt

end Sys2Proof.Proofs.Scope
end

section
/-! SUPPORT. Proofs of the statements of 10_state.md: what a command can do to each bit of `STAT` and to `SV`, `CC` and `OUT` (R15 to
R25), that no step can tell what an unwritten register holds (R30), and the constant `K` (R26). -/

namespace Sys2Proof.Proofs.Registers

open Sys2Proof.Machine Sys2Proof.Safety Sys2Proof.Laws Sys2Proof.Laws.State

/-! ## The operation of a decoded command -/

/-- `OPC` of an instruction (30_encoding.md R44). -/
def opcode (i : Instr) : Nat :=
  match i with
  | .nop => 0
  | .svb _ _ => 1
  | .wrsv _ => 2
  | .rdsv => 3
  | .ccb _ _ => 4
  | .wrcc _ => 5
  | .rdcc => 6
  | .dec _ _ _ _ => 7
  | .rdout _ => 8
  | .rdstat => 9

theorem commandWord_toNat_mod (opc : BitVec 4) (k : Fin 4) : (commandWord opc k).toNat % 16 = opc.toNat := by
  revert opc k
  decide

/-- Only a legal command decodes (30_encoding.md R46). -/
theorem legal_of_decode {c : Command} {i : Instr} (h : decode c = .ok i) : legal c.cmd = true := by
  by_contra hl
  obtain ⟨e, he⟩ := Decode.decode_illegal (Bool.eq_false_iff.2 hl)
  cases he.symm.trans h

/-- A command's low four bits are the `OPC` of what it decodes to (30_encoding.md R41, R44). -/
theorem opcode_of_decode {c : Command} {i : Instr} (h : decode c = .ok i) : c.cmd.toNat % 16 = opcode i := by
  have hl := legal_of_decode h
  obtain ⟨cmd, d⟩ := c
  rcases Decode.legal_cases hl with rfl | rfl | rfl | rfl | rfl | rfl | rfl | ⟨k, rfl⟩ | ⟨k, rfl⟩ | rfl
  · cases (Decode.decode_nop d).symm.trans h
    rfl
  · cases (Decode.decode_svb d).symm.trans h
    rfl
  · cases (Decode.decode_wrsv d).symm.trans h
    rfl
  · cases (Decode.decode_rdsv d).symm.trans h
    rfl
  · cases (Decode.decode_ccb d).symm.trans h
    rfl
  · cases (Decode.decode_wrcc d).symm.trans h
    rfl
  · cases (Decode.decode_rdcc d).symm.trans h
    rfl
  · cases (Decode.decode_dec k d).symm.trans h
    exact commandWord_toNat_mod _ k
  · cases (Decode.decode_rdout k d).symm.trans h
    exact commandWord_toNat_mod _ k
  · cases (Decode.decode_rdstat d).symm.trans h
    rfl

/-! ## `STAT` after an instruction -/

/-- The instruction sets bit `b` of `STAT` when it finds `stat` there (the table of 10_state.md R19). -/
def SetsBit (i : Instr) (stat : Word) (b : Nat) : Prop :=
  (b = 0 ∧ writesSv i = true) ∨ (b = 1 ∧ writesCc i = true) ∨
    (b = 2 ∧ isDec i = true ∧ stat.getLsbD 0 = true ∧ stat.getLsbD 1 = true) ∨
    (b = 4 ∧ needsUnwritten (opcode i) stat)

theorem SetsBit.lt_five {i : Instr} {stat : Word} {b : Nat} (h : SetsBit i stat b) : b < 5 := by
  rcases h with ⟨rfl, -⟩ | ⟨rfl, -⟩ | ⟨rfl, -⟩ | ⟨rfl, -⟩ <;> decide

/-- A command that needs a valid bit and only reads: it sets `STAT.UNINIT` if the bit is 0 (60_exceptions.md R80). -/
theorem guardedRead_stat_bit (valid : Bool) (r : Lanes Word) (s : State) (b : Nat) :
    (if valid then respond .ok r s else fail .uninit s).stat.getLsbD b = true ↔
      s.stat.getLsbD b = true ∨ (b = 4 ∧ valid = false) := by
  cases valid
  · simp [Ops.statSet_bit_iff, statPos]
  · simp

/-- `DEC` sets `STAT.OUTV` if both its operands are written, `STAT.UNINIT` if not (42_position_decode.md R71). -/
theorem exec_dec_stat_bit {k : Fin 4} {a0 a1 a2 : Lanes Half} {s t : State} (h : exec (.dec k a0 a1 a2) s = .next t)
    (b : Nat) :
    t.stat.getLsbD b = true ↔
      s.stat.getLsbD b = true ∨ (b = 2 ∧ s.stat.getLsbD 0 = true ∧ s.stat.getLsbD 1 = true) ∨
        (b = 4 ∧ (s.stat.getLsbD 0 = false ∨ s.stat.getLsbD 1 = false)) := by
  by_cases hvalid : s.stat.getLsbD 0 = true ∧ s.stat.getLsbD 1 = true
  · obtain ⟨h0, h1⟩ := hvalid
    obtain ⟨u, hu, -, hstat, -⟩ := Ops.exec_dec k a0 a1 a2 h0 h1
    cases hu.symm.trans h
    simp only [hstat, Ops.statSet_bit_iff, statPos, h0, h1]
    simp
  · have hclear : s.stat.getLsbD 0 = false ∨ s.stat.getLsbD 1 = false := by
      rwa [not_and_or, Bool.not_eq_true, Bool.not_eq_true] at hvalid
    cases (Ops.exec_dec_uninit k a0 a1 a2 hclear).symm.trans h
    simp only [Ops.fail_uninit_eq, respond_stat, setStat_stat, Ops.statSet_bit_iff, statPos, hvalid, hclear]
    simp

/-- After an instruction a bit of `STAT` is 1 exactly when it was, or the instruction sets it (10_state.md R19). -/
theorem exec_stat_bit {i : Instr} {s t : State} (h : exec i s = .next t) (b : Nat) :
    t.stat.getLsbD b = true ↔ s.stat.getLsbD b = true ∨ SetsBit i s.stat b := by
  cases i <;> simp only [SetsBit, needsUnwritten, opcode, writesSv, writesCc, isDec]
  case dec =>
    rw [exec_dec_stat_bit h]
    simp
  all_goals cases h
  case nop | rdstat => simp
  case svb | wrsv | ccb | wrcc => simp [Ops.statSet_bit_iff, statPos]
  case rdsv | rdcc | rdout =>
    rw [guardedRead_stat_bit]
    simp [statHas, statPos]

/-- Settles O23. -/
theorem statusAfterLegalCommand : Obligations.StatusAfterLegalCommand := by
  intro s t c rest i ⟨hphase, hinbox⟩ hdecode hstep b
  rw [Ops.step_command hphase hinbox, Ops.runCommand_ok hdecode] at hstep
  rw [opcode_of_decode hdecode]
  exact exec_stat_bit hstep b

/-! ## The reserved bits of `STAT` -/

theorem reservedStatZero_of_stat_zero {s : State} (h : s.stat = 0#32) : ReservedStatZero s := by
  intro b _
  rw [h, BitVec.getLsbD_zero]

theorem reservedStatZero_powerUp (s : State) : ReservedStatZero (powerUp s) := by
  intro b hb
  have hdefined : statDefined.getLsbD b = false :=
    Nat.testBit_lt_two_pow (lt_of_lt_of_le (by decide : 31 < 2 ^ 5) (Nat.pow_le_pow_right two_pos hb))
  change (_ &&& statDefined).getLsbD b = false
  rw [BitVec.getLsbD_and, hdefined, Bool.and_false]

theorem reservedStatZero_exec {i : Instr} {s t : State} (h : exec i s = .next t) (hs : ReservedStatZero s) :
    ReservedStatZero t := by
  intro b hb
  rw [← Bool.not_eq_true, exec_stat_bit h, hs b hb]
  rintro (hfalse | hset)
  · cases hfalse
  · exact absurd hset.lt_five (by omega)

theorem reservedStatZero_fail_ill {s : State} (hs : ReservedStatZero s) : ReservedStatZero (fail .ill s) := by
  intro b hb
  have hne : b ≠ statPos .ill := by rw [statPos]; omega
  exact (Ops.statSet_other _ _ hne).trans (hs b hb)

theorem reservedStatZero_runCommand {c : Command} {s t : State} (h : runCommand c s = .next t)
    (hs : ReservedStatZero s) : ReservedStatZero t := by
  unfold runCommand at h
  split at h
  · exact reservedStatZero_exec h hs
  · cases h
    exact reservedStatZero_fail_ill hs

/-- Settles O20, by the cases of a step: a command sets defined bits only, reset clears `STAT`, power leaves the defined bits. -/
theorem reservedStatusBitsStayZero : Obligations.ReservedStatusBitsStayZero := by
  intro s t hs hstep
  rcases Ops.step_cases hstep with ⟨-, rfl⟩ | ⟨rest, -, rfl⟩ | ⟨rest, -, rfl⟩ | ⟨c, rest, -, -, hrun⟩ |
    ⟨c, rest, u, -, -, hrun, rfl⟩ | ⟨c, rest, u, -, -, -, rfl⟩
  · exact hs
  · exact reservedStatZero_powerUp _
  · exact reservedStatZero_of_stat_zero rfl
  · exact reservedStatZero_runCommand hrun hs
  · have hu : ReservedStatZero u :=
      reservedStatZero_runCommand hrun (reservedStatZero_of_stat_zero (applyReset_stat _))
    exact hu
  · exact reservedStatZero_of_stat_zero rfl

/-- Settles O21. -/
theorem reservedStatusBitsZeroAtReset : Obligations.ReservedStatusBitsZeroAtReset :=
  reservedStatZero_of_stat_zero (s := State.reset) rfl

/-- Settles O19. -/
theorem resetStateHasZeroStatus : Obligations.ResetStateHasZeroStatus := ⟨rfl, rfl, rfl⟩

/-! ## No command clears a bit of `STAT` -/

/-- Settles O22: of the cases of a step, an idle one and a command are left, and a command keeps every bit (`Ran`). -/
theorem statusBitsClearedOnlyByReset : Obligations.StatusBitsClearedOnlyByReset := by
  intro s t hstep hevent b hb
  rcases Ops.step_cases hstep with ⟨-, rfl⟩ | ⟨rest, hi, -⟩ | ⟨rest, hi, -⟩ | ⟨c, rest, -, -, hrun⟩ |
    ⟨c, rest, u, hi, -⟩ | ⟨c, rest, u, hi, -⟩
  · exact hb
  · cases hevent _ _ hi
  · cases hevent _ _ hi
  · obtain ⟨u, hu, hran⟩ := Ops.runCommand_ran c (takeEvent rest s)
    cases hu.symm.trans hrun
    exact hran.statKept b hb
  · cases hevent _ _ hi
  · cases hevent _ _ hi

/-! ## What leaves `SV`, `CC` and `OUT` alone -/

theorem exec_sv_of_not_writesSv {i : Instr} {s t : State} (h : exec i s = .next t) (hw : writesSv i = false) :
    t.sv = s.sv := by
  cases i <;> cases h
  case svb | wrsv => cases hw
  case nop | ccb | wrcc | rdstat => rfl
  case rdsv | rdcc | rdout | dec => split <;> rfl

theorem exec_cc_of_not_writesCc {i : Instr} {s t : State} (h : exec i s = .next t) (hw : writesCc i = false) :
    t.cc = s.cc := by
  cases i <;> cases h
  case ccb | wrcc => cases hw
  case nop | svb | wrsv | rdstat => rfl
  case rdsv | rdcc | rdout | dec => split <;> rfl

theorem exec_out_of_not_dec {i : Instr} {s t : State} (h : exec i s = .next t)
    (hw : ¬ (isDec i = true ∧ s.stat.getLsbD 0 = true ∧ s.stat.getLsbD 1 = true)) : t.out = s.out := by
  cases i <;> cases h
  case nop | svb | wrsv | ccb | wrcc | rdstat => rfl
  case rdsv | rdcc | rdout => split <;> rfl
  case dec =>
    split
    case isTrue hvalid => exact absurd ⟨rfl, Bool.and_eq_true_iff.1 hvalid⟩ hw
    case isFalse => rfl

/-- A command that changes a register is legal, for `fail` writes none, and is one of the register's writers by the frames of `exec`
(10_state.md R15, 70_reset_and_hazards.md R99). -/
theorem runCommand_writers {c : Command} {s t : State} (h : runCommand c s = .next t) :
    (t.sv ≠ s.sv → ∃ i, decode c = .ok i ∧ writesSv i = true) ∧
    (t.cc ≠ s.cc → ∃ i, decode c = .ok i ∧ writesCc i = true) ∧
    (t.out ≠ s.out → ∃ i, decode c = .ok i ∧ isDec i = true ∧ s.stat.getLsbD 0 = true ∧ s.stat.getLsbD 1 = true) := by
  unfold runCommand at h
  split at h
  next i hi =>
    refine ⟨fun hne => ⟨i, hi, ?_⟩, fun hne => ⟨i, hi, ?_⟩, fun hne => ⟨i, hi, ?_⟩⟩
    · exact Bool.of_not_eq_false fun hw => hne (exec_sv_of_not_writesSv h hw)
    · exact Bool.of_not_eq_false fun hw => hne (exec_cc_of_not_writesCc h hw)
    · exact by_contra fun hw => hne (exec_out_of_not_dec h hw)
  next =>
    cases h
    exact ⟨fun hne => absurd rfl hne, fun hne => absurd rfl hne, fun hne => absurd rfl hne⟩

/-- Settles O24. -/
theorem registersWrittenOnlyByTheirCommands : Obligations.RegistersWrittenOnlyByTheirCommands := by
  intro s t c rest ⟨hphase, hinbox⟩ hstep
  rw [Ops.step_command hphase hinbox] at hstep
  exact runCommand_writers (s := takeEvent rest s) hstep

/-! ## Unwritten contents are unobservable

Each operation on the state takes states that agree on what is written to states that so agree. -/

/-- A bit other than the one just set was 1 before. -/
theorem bit_of_statSet {w : Word} {b : StatBit} {i : Nat} (hi : i ≠ statPos b)
    (h : (statSet w b).getLsbD i = true) : w.getLsbD i = true := by
  rwa [Ops.statSet_other w b hi] at h

theorem agree_mapNext {a b : Host.Outcome State Fault Refusal} {f : State → State} (hab : AgreeOutcomes a b)
    (hf : ∀ {u v}, AgreeOnWritten u v → AgreeOnWritten (f u) (f v)) : AgreeOutcomes (mapNext f a) (mapNext f b) := by
  cases a <;> cases b
  case next.next => exact hf hab
  case fault.fault | refused.refused => exact hab
  all_goals exact hab.elim

section Agree

variable {s t : State} (h : AgreeOnWritten s t)
include h

/-- The draws from here do not depend on a register. -/
theorem nanDraw_congr : nanDraw s = nanDraw t := by
  funext n
  rw [nanDraw, nanDraw, h.draws]

theorem agree_respond (rc : RespCode) {r q : Lanes Word} (hr : r = q) :
    AgreeOnWritten (respond rc r s) (respond rc q t) :=
  { h with port := by rw [respond_port, respond_port, hr] }

theorem agree_idle : AgreeOnWritten (idle s) (idle t) := { h with port := rfl }

theorem agree_loseResponse : AgreeOnWritten (loseResponse s) (loseResponse t) := { h with port := rfl }

theorem agree_takeEvent (rest : List HostEvent) : AgreeOnWritten (takeEvent rest s) (takeEvent rest t) :=
  { h with inbox := rfl }

theorem agree_advanceDraws (n : Nat) : AgreeOnWritten (advanceDraws n s) (advanceDraws n t) :=
  { h with draws := congrArg (· + n) h.draws }

theorem agree_setStat {b : StatBit} (hb : 3 ≤ statPos b) : AgreeOnWritten (setStat b s) (setStat b t) :=
  { h with
    stat := congrArg (statSet · b) h.stat
    sv := fun hv => h.sv (bit_of_statSet (by omega) hv)
    cc := fun hv => h.cc (bit_of_statSet (by omega) hv)
    out := fun hv => h.out (bit_of_statSet (by omega) hv) }

theorem agree_writeSv {v w : Lanes Word} (hvw : v = w) : AgreeOnWritten (writeSv v s) (writeSv w t) :=
  { h with
    stat := congrArg (statSet · .svv) h.stat
    sv := fun _ => hvw
    cc := fun hv => h.cc (bit_of_statSet (by decide) hv)
    out := fun hv => h.out (bit_of_statSet (by decide) hv) }

theorem agree_writeCc {v w : Lanes Word} (hvw : v = w) : AgreeOnWritten (writeCc v s) (writeCc w t) :=
  { h with
    stat := congrArg (statSet · .ccv) h.stat
    sv := fun hv => h.sv (bit_of_statSet (by decide) hv)
    cc := fun _ => hvw
    out := fun hv => h.out (bit_of_statSet (by decide) hv) }

theorem agree_writeOut {v w : Lanes (Lanes Word)} (hvw : v = w) : AgreeOnWritten (writeOut v s) (writeOut w t) :=
  { h with
    stat := congrArg (statSet · .outv) h.stat
    sv := fun hv => h.sv (bit_of_statSet (by decide) hv)
    cc := fun hv => h.cc (bit_of_statSet (by decide) hv)
    out := fun _ => hvw }

theorem agree_fail (code : RespCode) : AgreeOnWritten (fail code s) (fail code t) := by
  cases code with
  | ok => exact agree_respond h .ok rfl
  | ill => exact agree_respond (agree_setStat h (by decide)) .ill rfl
  | uninit => exact agree_respond (agree_setStat h (by decide)) .uninit rfl

theorem agree_applyReset : AgreeOnWritten (applyReset s) (applyReset t) where
  stat := rfl
  phase := rfl
  inbox := h.inbox
  port := rfl
  draws := h.draws
  sv _ := rfl
  cc _ := rfl
  out _ := rfl

theorem agree_powerUp : AgreeOnWritten (powerUp s) (powerUp t) where
  stat := by rw [powerUp, powerUp, h.draws]
  phase := rfl
  inbox := h.inbox
  port := rfl
  draws := congrArg (· + 25) h.draws
  sv _ := by rw [powerUp, powerUp, h.draws]
  cc _ := by rw [powerUp, powerUp, h.draws]
  out _ := by rw [powerUp, powerUp, h.draws]

/-- A command that fails unless `STAT` is `valid` goes the same way in both states (60_exceptions.md R80). -/
theorem agree_guarded (valid : Word → Bool) (f : State → State)
    (hf : valid s.stat = true → AgreeOnWritten (f s) (f t)) :
    AgreeOnWritten (if valid s.stat then f s else fail .uninit s) (if valid t.stat then f t else fail .uninit t) := by
  rw [← h.stat]
  split
  next hvalid => exact hf hvalid
  next => exact agree_fail h .uninit

/-- A `DEC` that runs has both its operands written, so they are the same (42_position_decode.md R71). -/
theorem agree_decodeAndRespond (k : Fin 4) (a0 a1 a2 : Lanes Half) (h0 : s.stat.getLsbD 0 = true)
    (h1 : s.stat.getLsbD 1 = true) : AgreeOnWritten (decodeAndRespond k a0 a1 a2 s) (decodeAndRespond k a0 a1 a2 t) := by
  have hp : vdecode (nanDraw s) a0 a1 a2 s.sv s.cc = vdecode (nanDraw t) a0 a1 a2 t.sv t.cc := by
    rw [nanDraw_congr h, h.sv h0, h.cc h1]
  exact agree_respond (agree_advanceDraws (agree_writeOut h hp) 32) .ok (by rw [hp])

/-- A register is read only where its valid bit is 1, and there the two states hold the same (10_state.md R30). -/
theorem agree_exec (i : Instr) : AgreeOutcomes (exec i s) (exec i t) := by
  cases i with
  | nop => exact agree_respond h .ok rfl
  | svb c hd =>
    have hv : scaleVector Config.svbArith (nanDraw s 0) (nanDraw s 1) c hd =
        scaleVector Config.svbArith (nanDraw t 0) (nanDraw t 1) c hd := by rw [nanDraw_congr h]
    exact agree_respond (agree_advanceDraws (agree_writeSv h hv) 2) .ok rfl
  | wrsv v => exact agree_respond (agree_writeSv h rfl) .ok rfl
  | rdsv =>
    exact agree_guarded h (statHas · .svv) (fun u => respond .ok u.sv u) fun hv => agree_respond h .ok (h.sv hv)
  | ccb o m => exact agree_respond (agree_writeCc h rfl) .ok rfl
  | wrcc v => exact agree_respond (agree_writeCc h rfl) .ok rfl
  | rdcc =>
    exact agree_guarded h (statHas · .ccv) (fun u => respond .ok u.cc u) fun hv => agree_respond h .ok (h.cc hv)
  | dec k a0 a1 a2 =>
    refine agree_guarded h (fun w => statHas w .svv && statHas w .ccv) (decodeAndRespond k a0 a1 a2) fun hv => ?_
    obtain ⟨h0, h1⟩ := Bool.and_eq_true_iff.1 hv
    exact agree_decodeAndRespond h k a0 a1 a2 h0 h1
  | rdout k =>
    exact agree_guarded h (statHas · .outv) (fun u => respond .ok (u.out.get k) u) fun hv =>
      agree_respond h .ok (congrArg (·.get k) (h.out hv))
  | rdstat => exact agree_respond h .ok (by rw [h.stat])

theorem agree_runCommand (c : Command) : AgreeOutcomes (runCommand c s) (runCommand c t) := by
  unfold runCommand
  split
  · exact agree_exec h _
  · exact agree_fail h .ill

theorem agree_presentCommand (c : Command) : AgreeOutcomes (presentCommand c s) (presentCommand c t) := by
  unfold presentCommand
  rw [← h.phase]
  split
  · rfl
  · exact agree_runCommand h c

theorem agree_presentWithReset (c : Command) : AgreeOutcomes (presentWithReset c s) (presentWithReset c t) := by
  have h1 := agree_advanceDraws h 1
  unfold presentWithReset
  rw [← h.draws]
  split
  · exact agree_mapNext (agree_runCommand (agree_applyReset h1) c) agree_loseResponse
  · exact agree_mapNext (agree_runCommand h1 c) fun huv => agree_loseResponse (agree_applyReset huv)

theorem agree_handleEvent (e : HostEvent) : AgreeOutcomes (handleEvent e s) (handleEvent e t) := by
  cases e with
  | powerOn => exact agree_powerUp h
  | reset => exact agree_applyReset h
  | command c => exact agree_presentCommand h c
  | commandWithReset c => exact agree_presentWithReset h c

end Agree

/-- Settles O25: both states are presented the same, and every event keeps agreement. -/
theorem unwrittenContentsAreUnobservable : Obligations.UnwrittenContentsAreUnobservable := by
  intro s t h
  cases hi : s.inbox with
  | nil =>
    rw [Ops.step_idle hi, Ops.step_idle (h.inbox.symm.trans hi)]
    exact agree_idle h
  | cons e rest =>
    rw [Ops.step_event hi, Ops.step_event (h.inbox.symm.trans hi)]
    exact agree_handleEvent (agree_takeEvent h rest) e

/-! ## The constant `K` -/

/-- `K`'s significand is `2^23 + 2^8` and its last place `2^111` units. -/
theorem value_quantK : value quantK = 1 / 2 ^ 15 + 1 / 2 ^ 30 := by
  have hunits : units quantK = (2 ^ 23 + 2 ^ 8) * 2 ^ 111 := by decide
  rw [value, hunits]
  norm_num

/-- 1/32767 is `2^149 / 32767` units. -/
theorem quantK_eq_round32 : round32 false (2 ^ 149) quantDivisor = quantK := by decide

/-- Settles O43. -/
theorem quantConstantIsRounded : Obligations.QuantConstantIsRounded := by
  refine ⟨rfl, value_quantK, ?_⟩
  have hround := Rounding.round32_correct false (2 ^ 149) (d := quantDivisor) (by decide)
  have hvalue : Rounding.signFactor false * (((2 ^ 149 : ℕ) : ℚ) / quantDivisor) / 2 ^ 149 = 1 / 32767 := by
    norm_num [Rounding.signFactor, quantDivisor]
  rwa [hvalue, quantK_eq_round32] at hround

end Sys2Proof.Proofs.Registers
end

section
/-! SUPPORT. Proof of the statement of 20_memory.md: where `DEC` finds its twelve 16-bit lanes in the payload (R33). -/

namespace Sys2Proof.Proofs.Memory

open Sys2Proof.Laws

/-- Input `i` of a `DEC` command, from its two payload words (30_encoding.md R48). -/
def decInput (d : Payload) (i : Fin 3) : Lanes Half :=
  lanesOfPair (d.word ⟨2 * i.val, by omega⟩) (d.word ⟨2 * i.val + 1, by omega⟩)

/-- The three inputs that the decoder reads are `decInput`. -/
theorem decode_dec_decInput (k : Fin 4) (d : Payload) :
    decode ⟨commandWord 0x7#4 k, d⟩ = .ok (.dec k (decInput d 0) (decInput d 1) (decInput d 2)) :=
  Decode.decode_dec k d

/-- Lane `k` is one half of word `k / 2` of its input's pair, the low half for an even `k` (20_memory.md R33). -/
theorem decInput_get (d : Payload) (i : Fin 3) (k : Fin 4) :
    (decInput d i).get k =
      (d.word ⟨2 * i.val + k.val / 2, by omega⟩).extractLsb' (16 * (k.val % 2)) 16 := by
  match k with
  | 0 | 1 | 2 | 3 => rfl

/-- Settles O6: each lane is sixteen consecutive bits of its payload word. -/
theorem decAssemblesLanesFromWords : Obligations.DecAssemblesLanesFromWords := by
  intro v d
  refine ⟨decInput d, decode_dec_decInput v d, fun i k b hb => ?_⟩
  rw [decInput_get, BitVec.getLsbD_extractLsb', decide_eq_true hb, Bool.true_and]

end Sys2Proof.Proofs.Memory
end

section
/-! SUPPORT. Proofs of the statements of 30_encoding.md: which command words are legal (R46), that encoding and decoding undo each
other and that ignored payload words have no effect (R44, R47, R49), and what the assembler makes of a line (R53). -/

namespace Sys2Proof.Proofs.Encoding

open Sys2Proof.Machine Sys2Proof.Safety Sys2Proof.Laws

/-! ## Encoding and then decoding -/

/-- Every instruction's encoding is legal and decodes to it, constructor by constructor. -/
theorem roundTrip (i : Instr) : RoundTrip.Statement i := by
  cases i with
  | nop => exact RoundTrip.nop
  | svb c hd => exact RoundTrip.svb c hd
  | wrsv v => exact RoundTrip.wrsv v
  | rdsv => exact RoundTrip.rdsv
  | ccb o m => exact RoundTrip.ccb o m
  | wrcc v => exact RoundTrip.wrcc v
  | rdcc => exact RoundTrip.rdcc
  | dec k a0 a1 a2 => exact RoundTrip.dec k a0 a1 a2
  | rdout k => exact RoundTrip.rdout k
  | rdstat => exact RoundTrip.rdstat

theorem legal_encode (i : Instr) : legal (encode i).cmd = true := (roundTrip i).1

theorem decode_encode (i : Instr) : decode (encode i) = .ok i := (roundTrip i).2

/-- Settles O1. -/
theorem decodeInvertsEncode : Obligations.DecodeInvertsEncode := decode_encode

/-- Settles O7, row by row of the opcode map. -/
theorem wordsOfTheOpcodeMapDecode : Obligations.WordsOfTheOpcodeMapDecode :=
  ⟨Decode.decode_svb _, Decode.decode_ccb _, Decode.decode_rdout 2 _, Decode.decode_rdstat _⟩

/-! ## Legal command words -/

/-- `legal` is the three conditions of 30_encoding.md R46. -/
theorem legal_iff (cmd : Word) :
    legal cmd = true ↔ cmd.toNat / 2 ^ 6 = 0 ∧ cmd.toNat % 16 ≤ 9 ∧
      (cmd.toNat / 16 % 4 = 0 ∨ cmd.toNat % 16 = 7 ∨ cmd.toNat % 16 = 8) := by
  simp [legal, reservedZero, opcodeKnown, vselAllowed, and_assoc, or_assoc]

theorem decodes_iff_legal (c : Command) : (∃ i, decode c = .ok i) ↔ legal c.cmd = true :=
  ⟨fun ⟨_, h⟩ => Registers.legal_of_decode h, Scope.decode_legal⟩

/-- The whole effect of an illegal command on an operational block (30_encoding.md R43, 60_exceptions.md R79). -/
theorem step_illegal {s : State} {c : Command} {rest : List HostEvent} (hs : Presents s c rest) (hl : legal c.cmd = false) :
    step s = .next (fail .ill (takeEvent rest s)) := by
  obtain ⟨hphase, hinbox⟩ := hs
  rw [Ops.step_command hphase hinbox, Ops.runCommand_illegal hl]

/-- Settles O2: decoding, legality and the three conditions coincide, and an illegal command is `fail .ill`. -/
theorem legalityIsOfTheCommandWord : Obligations.LegalityIsOfTheCommandWord := by
  intro cmd d
  rw [← legal_iff]
  exact ⟨decodes_iff_legal _, fun hl s rest hs => step_illegal hs (Bool.eq_false_iff.2 hl)⟩

/-- Settles O3: `legal_cases` lists the words, those of `DEC` and `RDOUT` by vertex. -/
theorem sixteenLegalCommandWords : Obligations.SixteenLegalCommandWords := by
  intro w
  constructor
  · intro h
    replace h := Decode.legal_cases h
    rcases h with rfl | rfl | rfl | rfl | rfl | rfl | rfl | ⟨k, rfl⟩ | ⟨k, rfl⟩ | rfl
    all_goals decide +revert
  · exact fun h => List.all_eq_true.1 (by decide) w h

/-! ## Decoding and then encoding -/

/-- The halves of a word packed again give the word (30_encoding.md R47, R48). -/
theorem packPair_extract (w : Word) : packPair (w.extractLsb' 0 16) (w.extractLsb' 16 16) = w := by
  apply BitVec.eq_of_getLsbD_eq
  intro i hi
  rcases Nat.lt_or_ge i 16 with h | h
  · simp [packPair, h]
    exact fun _ => hi
  · simp [packPair, hi, Nat.not_lt.2 h, Nat.add_sub_cancel' h]
    omega

/-- A payload with every word from the `n`-th on set to 0, as `encode` leaves the words an operation ignores (30_encoding.md R49). -/
def readWords (n : Nat) (d : Payload) : Payload where
  d0 := if 0 < n then d.d0 else 0#32
  d1 := if 1 < n then d.d1 else 0#32
  d2 := if 2 < n then d.d2 else 0#32
  d3 := if 3 < n then d.d3 else 0#32
  d4 := if 4 < n then d.d4 else 0#32
  d5 := if 5 < n then d.d5 else 0#32

theorem readWords_word (n : Nat) (d : Payload) (w : Fin 6) :
    (readWords n d).word w = if w.val < n then d.word w else 0#32 := by
  match w with
  | 0 | 1 | 2 | 3 | 4 | 5 => rfl

theorem readWords_congr {n : Nat} {d d' : Payload} (h : ∀ w : Fin 6, w.val < n → d.word w = d'.word w) :
    readWords n d = readWords n d' := by
  have hword (w : Fin 6) : (readWords n d).word w = (readWords n d').word w := by
    rw [readWords_word, readWords_word]
    split
    next hw => exact h w hw
    next => rfl
  exact Payload.ext (hword 0) (hword 1) (hword 2) (hword 3) (hword 4) (hword 5)

/-- `DEC` packs the halves it cut its payload into. -/
theorem encode_dec_lanesOfPair (k : Fin 4) (d : Payload) :
    encode (.dec k (lanesOfPair d.d0 d.d1) (lanesOfPair d.d2 d.d3) (lanesOfPair d.d4 d.d5)) = ⟨commandWord 0x7#4 k, d⟩ := by
  simp [encode, lanesOfPair, packPair_extract]

/-- Each row of the opcode map (30_encoding.md R44, R47): the instruction it gives encodes to the command word and the words it
reads. -/
theorem decode_legal_encode {c : Command} (hl : legal c.cmd = true) :
    ∃ i, decode c = .ok i ∧ encode i = ⟨c.cmd, readWords (payloadRead (c.cmd.toNat % 16)) c.d⟩ := by
  obtain ⟨cmd, d⟩ := c
  rcases Decode.legal_cases hl with rfl | rfl | rfl | rfl | rfl | rfl | rfl | ⟨k, rfl⟩ | ⟨k, rfl⟩ | rfl
  · exact ⟨_, Decode.decode_nop d, rfl⟩
  · exact ⟨_, Decode.decode_svb d, rfl⟩
  · exact ⟨_, Decode.decode_wrsv d, rfl⟩
  · exact ⟨_, Decode.decode_rdsv d, rfl⟩
  · exact ⟨_, Decode.decode_ccb d, rfl⟩
  · exact ⟨_, Decode.decode_wrcc d, rfl⟩
  · exact ⟨_, Decode.decode_rdcc d, rfl⟩
  · exact ⟨_, Decode.decode_dec k d, by rw [encode_dec_lanesOfPair, Registers.commandWord_toNat_mod]; rfl⟩
  · exact ⟨_, Decode.decode_rdout k d, by rw [Registers.commandWord_toNat_mod]; rfl⟩
  · exact ⟨_, Decode.decode_rdstat d, rfl⟩

/-- Settles O4: the command is legal, so `decode_legal_encode` speaks of it. -/
theorem encodeKeepsReadWords : Obligations.EncodeKeepsReadWords := by
  intro c i h
  obtain ⟨j, hj, hencode⟩ := decode_legal_encode (Registers.legal_of_decode h)
  cases hj.symm.trans h
  rw [hencode]
  exact ⟨rfl, fun w hw => (readWords_word _ _ _).trans (if_pos hw)⟩

/-! ## Ignored payload words -/

/-- The decoder reads the payload words of the operation and no other (30_encoding.md R49). -/
theorem decode_readWords {c : Command} (hl : legal c.cmd = true) :
    decode c = decode ⟨c.cmd, readWords (payloadRead (c.cmd.toNat % 16)) c.d⟩ := by
  obtain ⟨i, hi, hencode⟩ := decode_legal_encode hl
  rw [hi, ← hencode, decode_encode]

/-- Settles O5: a legal command acts by what it decodes to, an illegal one only fails. -/
theorem ignoredPayloadHasNoEffect : Obligations.IgnoredPayloadHasNoEffect := by
  intro cmd d d' s h
  cases hl : legal cmd with
  | true =>
    have hdecode : decode ⟨cmd, d⟩ = decode ⟨cmd, d'⟩ := by
      rw [decode_readWords hl, readWords_congr h, ← decode_readWords (c := ⟨cmd, d'⟩) hl]
    rw [runCommand, runCommand, hdecode]
  | false => rw [Ops.runCommand_illegal hl, Ops.runCommand_illegal hl]

/-! ## The assembler -/

theorem assemble_ok_iff {l : AsmLine} {cs : List Command} :
    assemble l = .ok cs ↔ ∃ is, assembleLine l = .ok is ∧ is.map encode = cs := by
  rw [assemble]
  cases assembleLine l <;> simp

theorem assemble_error {l : AsmLine} {e : AsmError} (h : assembleLine l = .error e) : assemble l = .error e := by
  rw [assemble, h]

theorem single_ok_iff {r : Except AsmError Instr} {is : List Instr} : single r = .ok is ↔ ∃ i, r = .ok i ∧ [i] = is := by
  cases r <;> simp [single]

/-- What the assembler gives are encodings. -/
theorem mem_assemble {l : AsmLine} {cs : List Command} (h : assemble l = .ok cs) {c : Command} (hc : c ∈ cs) :
    ∃ i, encode i = c := by
  obtain ⟨is, -, rfl⟩ := assemble_ok_iff.1 h
  obtain ⟨i, -, hi⟩ := List.mem_map.1 hc
  exact ⟨i, hi⟩

theorem assembleText_ok {text : List Char} {cs : List Command} (h : assembleText text = .ok cs) :
    ∃ l, assemble l = .ok cs := by
  rw [assembleText] at h
  cases hl : readLine text with
  | ok l => exact ⟨l, by rwa [hl] at h⟩
  | error e => rw [hl] at h; cases h

/-- Settles O52: each command is an encoding. -/
theorem assembledCommandsAreLegal : Obligations.AssembledCommandsAreLegal := by
  have hline (l : AsmLine) (cs : List Command) (h : assemble l = .ok cs) :
      ∀ c ∈ cs, legal c.cmd = true ∧ ∃ i, decode c = .ok i := by
    intro c hc
    obtain ⟨i, rfl⟩ := mem_assemble h hc
    exact ⟨legal_encode i, i, decode_encode i⟩
  refine ⟨hline, fun text cs h => ?_⟩
  obtain ⟨l, hl⟩ := assembleText_ok h
  exact hline l cs hl

/-! ## Operands in and out of range -/

theorem asmSvb_ok (c : FloatLit) {hd : Int} (h : Int32Fits hd) :
    asmSvb c hd = .ok (.svb (floatLit c) (BitVec.ofInt 32 hd)) := by
  rw [asmSvb, Assembler.int32Lit_ok h]

theorem asmSvb_error (c : FloatLit) {hd : Int} (h : ¬ Int32Fits hd) : asmSvb c hd = .error .int32Range := by
  rw [asmSvb, Assembler.int32Lit_error h]

theorem asmCcb_ok (o : Lanes FloatLit) {m : Int} (h : Int32Fits m) :
    asmCcb o m = .ok (.ccb (floatLits o) (BitVec.ofInt 32 m)) := by
  rw [asmCcb, Assembler.int32Lit_ok h]

theorem asmCcb_error (o : Lanes FloatLit) {m : Int} (h : ¬ Int32Fits m) : asmCcb o m = .error .int32Range := by
  rw [asmCcb, Assembler.int32Lit_error h]

/-- A `DEC` line in range: its vertex and its lanes' values. -/
theorem asmDec_ok {v : Option Nat} {a0 a1 a2 : Lanes HalfLit} (hv : vertexOf v < 4)
    (h : ∀ j, HalfFits (a0.get j) ∧ HalfFits (a1.get j) ∧ HalfFits (a2.get j)) :
    ∃ b0 b1 b2, asmDec v a0 a1 a2 = .ok (.dec ⟨vertexOf v, hv⟩ b0 b1 b2) ∧
      ∀ j, HalfIs (a0.get j) (b0.get j) ∧ HalfIs (a1.get j) (b1.get j) ∧ HalfIs (a2.get j) (b2.get j) := by
  obtain ⟨b0, h0, hb0⟩ := Assembler.int16Lits_ok fun j => (h j).1
  obtain ⟨b1, h1, hb1⟩ := Assembler.int16Lits_ok fun j => (h j).2.1
  obtain ⟨b2, h2, hb2⟩ := Assembler.int16Lits_ok fun j => (h j).2.2
  exact ⟨b0, b1, b2, by rw [asmDec, Assembler.vertexLit_ok hv, h0, h1, h2], fun j => ⟨hb0 j, hb1 j, hb2 j⟩⟩

theorem halfFits_of_int16Lits_ok {v : Lanes HalfLit} {w : Lanes Half} (h : int16Lits v = .ok w) (j : Fin 4) :
    HalfFits (v.get j) := by
  by_contra hn
  cases h.symm.trans (Assembler.int16Lits_error hn)

/-- A `DEC` line with a lane out of range. -/
theorem asmDec_lane_error {v : Option Nat} {a0 a1 a2 : Lanes HalfLit} (hv : vertexOf v < 4) {j : Fin 4}
    (h : ¬ (HalfFits (a0.get j) ∧ HalfFits (a1.get j) ∧ HalfFits (a2.get j))) :
    asmDec v a0 a1 a2 = .error .int16Range := by
  rw [asmDec, Assembler.vertexLit_ok hv]
  dsimp only
  split
  next h0 h1 h2 =>
    exact absurd ⟨halfFits_of_int16Lits_ok h0 j, halfFits_of_int16Lits_ok h1 j, halfFits_of_int16Lits_ok h2 j⟩ h
  next => rfl

theorem asmDec_vertex_error {v : Option Nat} (a0 a1 a2 : Lanes HalfLit) (h : ¬ vertexOf v < 4) :
    asmDec v a0 a1 a2 = .error .vertexRange := by
  rw [asmDec, Assembler.vertexLit_error h]

/-! ## Lines -/

/-- A line of one instruction gives its encoding. -/
theorem assemble_single {l : AsmLine} {r : Except AsmError Instr} {i : Instr} (hl : assembleLine l = single r) (hr : r = .ok i) :
    assemble l = .ok [encode i] := assemble_ok_iff.2 ⟨[i], by rw [hl, hr, single], rfl⟩

/-- A line of one instruction is refused as its instruction is. -/
theorem assemble_single_error {l : AsmLine} {r : Except AsmError Instr} {e : AsmError} (hl : assembleLine l = single r)
    (hr : r = .error e) : assemble l = .error e := assemble_error (by rw [hl, hr, single])

theorem assemble_svb (c : FloatLit) {hd : Int} (h : Int32Fits hd) :
    assemble (.svb c hd) = .ok [encode (.svb (floatLit c) (BitVec.ofInt 32 hd))] := assemble_single rfl (asmSvb_ok c h)

theorem assemble_ccb (o : Lanes FloatLit) {m : Int} (h : Int32Fits m) :
    assemble (.ccb o m) = .ok [encode (.ccb (floatLits o) (BitVec.ofInt 32 m))] := assemble_single rfl (asmCcb_ok o h)

/-- Settles O54. -/
theorem ldcellIsSvbThenCcb : Obligations.LdcellIsSvbThenCcb := by
  intro c hd o m x y hx hy
  obtain ⟨is, his, hmap⟩ := assemble_ok_iff.1 hx
  obtain ⟨js, hjs, hmap'⟩ := assemble_ok_iff.1 hy
  obtain ⟨i, hi, rfl⟩ := single_ok_iff.1 his
  obtain ⟨j, hj, rfl⟩ := single_ok_iff.1 hjs
  cases hmap
  cases hmap'
  exact assemble_ok_iff.2 ⟨[i, j], by rw [assembleLine, hi, hj], rfl⟩

/-- `LDCELL` with either integer out of range. -/
theorem assemble_ldcell_error (c : FloatLit) {hd : Int} (o : Lanes FloatLit) {m : Int} (h : ¬ (Int32Fits hd ∧ Int32Fits m)) :
    assemble (.ldcell c hd o m) = .error .int32Range := by
  apply assemble_error
  rw [assembleLine]
  by_cases hhd : Int32Fits hd
  · rw [asmSvb_ok c hhd, asmCcb_error o fun hm => h ⟨hhd, hm⟩]
  · rw [asmSvb_error c hhd]

/-- Settles O53, line by line, from what each literal gives in and out of range. -/
theorem assemblerRefusesWhatDoesNotFit : Obligations.AssemblerRefusesWhatDoesNotFit := by
  refine ⟨fun c hd => ⟨fun h => ?_, fun h => ?_⟩, fun o m => ⟨fun h => ?_, fun h => ?_⟩,
    fun c hd o m => ⟨fun ⟨hhd, hm⟩ => ?_, fun h => ?_⟩,
    fun v a0 a1 a2 => ⟨fun hv h => ?_, fun hv ⟨j, h⟩ => ?_, fun hv => ?_⟩, fun v => ⟨fun hv => ?_, fun hv => ?_⟩⟩
  · exact ⟨_, _, assemble_svb c h, decode_encode _, Assembler.toInt_ofInt32 h⟩
  · exact assemble_single_error rfl (asmSvb_error c h)
  · exact ⟨_, _, assemble_ccb o h, decode_encode _, Assembler.toInt_ofInt32 h⟩
  · exact assemble_single_error rfl (asmCcb_error o h)
  · exact ⟨_, _, _, _, ldcellIsSvbThenCcb c hd o m _ _ (assemble_svb c hhd) (assemble_ccb o hm),
      decode_encode _, Assembler.toInt_ofInt32 hhd, decode_encode _, Assembler.toInt_ofInt32 hm⟩
  · exact assemble_ldcell_error c o h
  · obtain ⟨b0, b1, b2, hdec, hlanes⟩ := asmDec_ok hv h
    exact ⟨_, _, b0, b1, b2, assemble_single rfl hdec, decode_encode _, rfl, hlanes⟩
  · exact assemble_single_error rfl (asmDec_lane_error hv h)
  · exact assemble_single_error rfl (asmDec_vertex_error a0 a1 a2 hv)
  · exact ⟨_, _, assemble_ok_iff.2 ⟨_, by rw [assembleLine, Assembler.vertexLit_ok hv], rfl⟩, decode_encode _, rfl⟩
  · exact assemble_error (by rw [assembleLine, Assembler.vertexLit_error hv])

/-- Settles O57. -/
theorem linesAssembleToTheirInstructions : Obligations.LinesAssembleToTheirInstructions :=
  ⟨⟨_, rfl, decode_encode _⟩, fun _ => ⟨_, rfl, decode_encode _⟩, ⟨_, rfl, decode_encode _⟩,
    fun _ => ⟨_, rfl, decode_encode _⟩, ⟨_, rfl, decode_encode _⟩, ⟨_, rfl, decode_encode _⟩⟩

/-! ## Decimal literals -/

/-- A decimal literal is rounded from a fraction of units that is its exact magnitude (30_encoding.md R53). -/
theorem floatLit_decimal (neg : Bool) (digits : Nat) (e : Int) :
    ∃ n d : Nat, 0 < d ∧ floatLit (.decimal neg digits e) = round32 neg n d ∧
      (n / d / 2 ^ 149 : ℚ) = digits * 10 ^ e := by
  cases e with
  | ofNat e =>
    refine ⟨_, _, one_pos, rfl, ?_⟩
    push_cast
    rw [Int.ofNat_eq_natCast, zpow_natCast]
    field_simp
    ring
  | negSucc e =>
    refine ⟨_, _, by positivity, rfl, ?_⟩
    push_cast
    rw [zpow_negSucc]
    field_simp
    ring

/-- Settles O55: a decimal literal is one `round32` of its exact value. -/
theorem decimalLiteralsAreRounded : Obligations.DecimalLiteralsAreRounded := by
  refine ⟨fun neg digits e => ?_, fun _ => rfl⟩
  obtain ⟨n, d, hd, hlit, hvalue⟩ := floatLit_decimal neg digits e
  have hround := Rounding.round32_correct neg n hd
  rw [mul_div_assoc, hvalue, ← mul_assoc] at hround
  rw [hlit]
  exact ⟨hround, Float.signBit_round32 neg n d⟩

end Sys2Proof.Proofs.Encoding
end

section
/-! SUPPORT. Proofs of the statements of 40_scale_vector.md: `qscale` under each `SVB_ARITH` (R54), how far the product with `K` is from
the quotient (R57), and the commands SVB, WRSV and RDSV (R55 to R59). -/

namespace Sys2Proof.Proofs.ScaleVector

open Sys2Proof.Machine Sys2Proof.Safety Sys2Proof.Laws Sys2Proof.Proofs.Scope Sys2Proof.Proofs.Registers

/-! ## Special values of `qscale` -/

theorem packSign_of_isInf {x : Word} (h : isInf x = true) : packSign (signBit x) infBits = x := by
  rw [← (Float.isInf_iff x).1 h]
  exact (Float.eq_packSign x).symm

theorem packSign_of_isZero {x : Word} (h : isZero x = true) : packSign (signBit x) 0 = x := by
  rw [← (Float.isZero_iff x).1 h]
  exact (Float.eq_packSign x).symm

/-- `K` is a positive number, so it does not change the sign of a product. -/
theorem signBit_xor_quantK (x : Word) : (signBit x ^^ signBit quantK) = signBit x := by
  rw [show signBit quantK = false by decide, Bool.xor_false]

theorem isFinite_quantK : isFinite quantK = true := by decide

theorem fmul32_quantK_of_isInf (nan : Word) {x : Word} (h : isInf x = true) : fmul32 nan x quantK = x := by
  rw [fmul32_isInf_nonzero nan h (by decide) (by decide), signBit_xor_quantK, packSign_of_isInf h]

theorem fmul32_quantK_of_isZero (nan : Word) {x : Word} (h : isZero x = true) : fmul32 nan x quantK = x := by
  rw [fmul32_isZero_isFinite nan h isFinite_quantK, signBit_xor_quantK, packSign_of_isZero h]

theorem fdivQuant_of_isNaN (nan : Word) {x : Word} (h : isNaN x = true) : fdivQuant nan x = nan := if_pos h

theorem fdivQuant_of_isInf (nan : Word) {x : Word} (h : isInf x = true) : fdivQuant nan x = x := by
  simp [fdivQuant, isNaN_of_isInf h, h, packSign_of_isInf h]

theorem fdivQuant_of_isFinite (nan : Word) {x : Word} (h : isFinite x = true) :
    fdivQuant nan x = round32 (signBit x) (magUnits x) quantDivisor := by
  obtain ⟨hnan, hinf⟩ := (Float.isFinite_iff_not x).1 h
  simp [fdivQuant, hnan, hinf]

theorem fdivQuant_of_isZero (nan : Word) {x : Word} (h : isZero x = true) : fdivQuant nan x = x := by
  rw [fdivQuant_of_isFinite nan (isFinite_of_isZero h), (magUnits_eq_zero_iff x).2 h, round32_zero, packSign_of_isZero h]

/-- Settles O44: `qscale` is the product with the positive number `K`, or the quotient. -/
theorem qscaleOfSpecialValues : Obligations.QscaleOfSpecialValues := by
  intro arith nan x
  cases arith with
  | f32Recip => exact ⟨fmul32_of_isNaN nan quantK, fmul32_quantK_of_isInf nan, fmul32_quantK_of_isZero nan⟩
  | exactDiv => exact ⟨fdivQuant_of_isNaN nan, fdivQuant_of_isInf nan, fdivQuant_of_isZero nan⟩

/-! ## `qscale` of finite values -/

theorem value_div_quantDivisor (x : Word) :
    value x / 32767 = Rounding.signFactor (signBit x) * (magUnits x / quantDivisor) / 2 ^ 149 := by
  rw [Rounding.value_eq, quantDivisor]
  push_cast
  ring

/-- Settles O42: the quotient is `magUnits x / 32767` units, which `round32` rounds correctly. -/
theorem exactDivRoundsTheQuotient : Obligations.ExactDivRoundsTheQuotient := by
  intro nan x hx
  rw [qscale, fdivQuant_of_isFinite nan hx, value_div_quantDivisor]
  exact ⟨Rounding.round32_correct _ _ (by decide), Float.signBit_round32 _ _ _⟩

/-- Settles O56: a product with `K`, as every product is rounded (00_scope.md R7). -/
theorem reciprocalScaleRoundsTheProduct : Obligations.ReciprocalScaleRoundsTheProduct := by
  refine fun nan x => ⟨rfl, fun hx => ?_⟩
  obtain ⟨hround, hsign⟩ := fmulRoundsTheExactProduct nan x quantK hx isFinite_quantK
  exact ⟨hround, hsign.trans (signBit_xor_quantK x)⟩

/-! ## The reciprocal and the quotient, within one unit in the last place -/

/-- The significand that `roundMag` finds is at most half its last place away from `n / d`. -/
theorem abs_sub_le_half_of_rounding {n d : Nat} (hd : 0 < d) (R : Float.Rounding n d) :
    |(R.q * 2 ^ R.s : ℚ) - n / d| ≤ 2 ^ R.s / 2 := by
  have hdq : (0 : ℚ) < d := by exact_mod_cast hd
  have habove : (2 * n : ℚ) ≤ (2 * R.q + 1) * (2 ^ R.s * d) := by exact_mod_cast R.near_above
  have hbelow : (2 * R.q * (2 ^ R.s * d) : ℚ) ≤ 2 * n + 2 ^ R.s * d := by exact_mod_cast R.near_below
  have hle : (n : ℚ) / d ≤ R.q * 2 ^ R.s + 2 ^ R.s / 2 := by
    rw [div_le_iff₀ hdq]
    linarith
  have hge : R.q * 2 ^ R.s - 2 ^ R.s / 2 ≤ (n : ℚ) / d := by
    rw [le_div_iff₀ hdq]
    linarith
  rw [abs_le]
  constructor <;> linarith

theorem abs_signFactor_mul (neg : Bool) (x : ℚ) : |Rounding.signFactor neg * x| = |x| := by
  cases neg <;> simp [Rounding.signFactor]

/-- A finite result is the significand that `roundMag` finds, on its last place: nothing was cut off at the infinity. -/
theorem round32_bits_of_isFinite {neg : Bool} {n d : Nat} (R : Float.Rounding n d)
    (hfin : isFinite (round32 neg n d) = true) :
    R.s * 2 ^ 23 + R.q < infBits ∧ round32 neg n d = packSign neg (R.s * 2 ^ 23 + R.q) := by
  have hlt : R.s * 2 ^ 23 + R.q < infBits := by
    by_contra hge
    rw [round32, R.bits, min_eq_left (not_lt.1 hge), Float.isFinite_iff_not, Float.isInf_packSign] at hfin
    exact absurd hfin.2 (by decide)
  exact ⟨hlt, by rw [round32, R.bits, min_eq_right hlt.le]⟩

/-- A normal result of `round32` is at most half a unit in its last place away from the exact value. -/
theorem round32_within_half_ulp {neg : Bool} {n d : Nat} (hd : 0 < d) (hfin : isFinite (round32 neg n d) = true)
    (hnormal : 1 ≤ expField (round32 neg n d)) :
    |value (round32 neg n d) - Rounding.signFactor neg * (n / d) / 2 ^ 149| ≤ ulp (round32 neg n d) / 2 := by
  obtain ⟨R⟩ := Float.rounding_exists n hd
  obtain ⟨hlt, hbits⟩ := round32_bits_of_isFinite R hfin
  have h31 : R.s * 2 ^ 23 + R.q < 2 ^ 31 := hlt.trans (by decide)
  rw [hbits, Float.expField_packSign neg h31] at hnormal
  have hplace : (2 ^ R.s : ℚ) ≤ 2 ^ ((R.s * 2 ^ 23 + R.q) / 2 ^ 23 - 1) := by
    have hq := R.q_ge
    exact pow_le_pow_right₀ (by norm_num) (by omega)
  rw [hbits, Rounding.value_packSign neg h31, Float.magOf_pack R.q_le R.q_ge, ulp, Float.expField_packSign neg h31,
    ← sub_div, ← mul_sub, mul_div_assoc, abs_signFactor_mul, abs_div, abs_of_pos (by positivity : (0 : ℚ) < 2 ^ 149),
    div_right_comm]
  refine div_le_div_of_nonneg_right ?_ (by positivity)
  push_cast
  exact (abs_sub_le_half_of_rounding hd R).trans (div_le_div_of_nonneg_right hplace (by norm_num))

/-- The magnitude of a normal value is less than 2^24 units in its last place. -/
theorem abs_value_le_ulp {r : Word} (hnormal : 1 ≤ expField r) : |value r| ≤ 2 ^ 24 * ulp r := by
  have hmag : magUnits r ≤ 2 ^ 24 * 2 ^ (expField r - 1) := by
    have hfrac : fracField r < 2 ^ 23 := (r.extractLsb' 0 23).isLt
    rw [magUnits, if_neg (by omega)]
    exact Nat.mul_le_mul_right _ (by omega)
  rw [Rounding.value_eq, mul_div_assoc, abs_signFactor_mul, abs_of_nonneg (by positivity), ulp, ← mul_div_assoc]
  gcongr
  exact_mod_cast hmag

/-- `K` is 1/32767 less its 2^30th part, so the product is the quotient less as small a part (10_state.md R26). -/
theorem value_mul_quantK (x : Word) : value x * value quantK = value x / 32767 * (1 - 1 / 2 ^ 30) := by
  rw [value_quantK]
  ring

/-- Settles O45: the rounding is off by at most half a unit in the last place, and the product by about a 64th. -/
theorem reciprocalScaleWithinOneUlp : Obligations.ReciprocalScaleWithinOneUlp := by
  intro nan x hx hfin hnormal
  have hhalf : |value (qscale .f32Recip nan x) - value x * value quantK| ≤ ulp (qscale .f32Recip nan x) / 2 := by
    rw [qscale, Float.fmul32_finite nan hx isFinite_quantK] at hfin hnormal ⊢
    rw [value_mul]
    exact round32_within_half_ulp (by positivity) hfin hnormal
  have hsize := abs_value_le_ulp hnormal
  rw [value_mul_quantK] at hhalf
  rw [abs_le] at hhalf hsize ⊢
  constructor <;> linarith

/-! ## SVB, WRSV and RDSV -/

/-- Settles O28: `SVB`'s next state field by field, its NaNs the next two draws. -/
theorem svbBuildsScaleVector : Obligations.SvbBuildsScaleVector := by
  refine fun d s => ⟨Decode.decode_svb d, ?_⟩
  obtain ⟨t, hexec, hsv, hstat, hport, hframe⟩ := Ops.exec_svb d.d0 d.d1 s
  refine ⟨t, nanDraw s 0, nanDraw s 1, Ops.isNaN_nanDraw s 0, Ops.isNaN_nanDraw s 1, hexec, ?_, ?_, ?_, ?_, ?_, hport, hframe⟩
  · rw [hsv, Ops.scaleVector_l0]
  · rw [hsv, Ops.scaleVector_l1]
  · rw [hsv, Ops.scaleVector_l2]
  · rw [hsv, Ops.scaleVector_l3]
  · rw [hstat]
    exact Ops.getLsbD_statSet s.stat .svv

/-- Settles O29. -/
theorem wrsvLoadsPatterns : Obligations.WrsvLoadsPatterns := fun d _ => ⟨Decode.decode_wrsv d, rfl⟩

/-- Settles O30: the valid bit chooses between the lanes and `UNINIT`. -/
theorem rdsvReturnsLanesOrFails : Obligations.RdsvReturnsLanesOrFails := fun d _ =>
  ⟨Decode.decode_rdsv d, Ops.exec_rdsv_ok, Ops.exec_rdsv_uninit⟩

end Sys2Proof.Proofs.ScaleVector
end

section
/-! SUPPORT. Proofs of the statements of 41_cell_coords.md: the lane choices of `CC_PERM` (R61) and the commands CCB, WRCC and RDCC
(R62 to R64). -/

namespace Sys2Proof.Proofs.CellCoords

open Sys2Proof.Machine Sys2Proof.Laws

/-- 41_cell_coords.md R61: no lane choice takes the origin's lane 1. -/
theorem cellCoords_ignores_oy (p : CcPerm) (ox oy oy' oz ow m : Word) :
    cellCoords p ⟨ox, oy, oz, ow⟩ m = cellCoords p ⟨ox, oy', oz, ow⟩ m := by
  cases p with
  | oxHtOzOz => rfl
  | ozHtOzOz => rfl
  | oxHtOzOw => rfl

/-- Settles O32: each choice is a row of `cellCoords`; lanes 1 and 2 are the same in every row. -/
theorem cellCoordsLaneChoices : Obligations.CellCoordsLaneChoices := fun ox oy oy' oz ow m =>
  ⟨rfl, rfl, rfl, fun p => ⟨Ops.cellCoords_l1 p _ m, Ops.cellCoords_l2 p _ m, cellCoords_ignores_oy p ox oy oy' oz ow m⟩⟩

/-- Settles O31: `CC` is `cellCoords` of the operands, whose lanes 0 and 3 the value of `CC_PERM` chooses. -/
theorem ccbBuildsCellCoords : Obligations.CcbBuildsCellCoords := by
  refine fun d s => ⟨Decode.decode_ccb d, cellCoords Config.ccPerm ⟨d.d0, d.d1, d.d2, d.d3⟩ (cvtI32F32 d.d4.toInt), ?_, ?_, ?_, ?_⟩
  · exact Ops.exec_ccb _ d.d4 s
  · exact Ops.cellCoords_l1 _ _ _
  · exact Ops.cellCoords_l2 _ _ _
  · exact Ops.cellCoords_cases _ _ _

/-- Settles O33. -/
theorem wrccLoadsPatterns : Obligations.WrccLoadsPatterns := fun d _ => ⟨Decode.decode_wrcc d, rfl⟩

/-- Settles O34: the valid bit chooses between the lanes and `UNINIT`. -/
theorem rdccReturnsLanesOrFails : Obligations.RdccReturnsLanesOrFails := fun d _ =>
  ⟨Decode.decode_rdcc d, Ops.exec_rdcc_ok, Ops.exec_rdcc_uninit⟩

end Sys2Proof.Proofs.CellCoords
end

section
/-! SUPPORT. Proofs of the statements of 42_position_decode.md: integers that convert exactly (R67, R74), the products of the decode
(R68, R75), its pad lane and its zero (R73, R75), and the commands DEC and RDOUT (R70 to R72). -/

namespace Sys2Proof.Proofs.PositionDecode

open Sys2Proof.Machine Sys2Proof.Safety Sys2Proof.Laws Sys2Proof.Proofs.Scope Sys2Proof.Proofs.ScaleVector

/-! ## Integers that convert exactly -/

/-- A positive integer of at most 2^24 is a significand of 24 bits, or 2^24 itself, on some last place: shift its leading bit up to
bit 23. -/
theorem exists_significand {m : Nat} (hpos : 0 < m) (hm : m ≤ 2 ^ 24) :
    ∃ s q, q * 2 ^ s = 2 ^ 149 * m ∧ s ≤ 149 ∧ 2 ^ 23 ≤ q ∧ q ≤ 2 ^ 24 := by
  have hlow := Nat.log2_self_le hpos.ne'
  have hhigh := Nat.lt_log2_self (n := m)
  rcases Nat.lt_or_ge m.log2 24 with hlog | hlog
  · have hbit : 2 ^ m.log2 * 2 ^ (23 - m.log2) = 2 ^ 23 := pow_mul_pow_sub 2 (by omega)
    refine ⟨149 - (23 - m.log2), m * 2 ^ (23 - m.log2), ?_, by omega, ?_, ?_⟩
    · rw [Nat.mul_assoc, pow_mul_pow_sub 2 (by omega), Nat.mul_comm]
    · rw [← hbit]
      exact Nat.mul_le_mul_right _ hlow
    · calc m * 2 ^ (23 - m.log2) ≤ 2 ^ (m.log2 + 1) * 2 ^ (23 - m.log2) := Nat.mul_le_mul_right _ hhigh.le
        _ = 2 ^ 24 := by rw [pow_succ, Nat.mul_right_comm, hbit, ← pow_succ]
  · have hge : 2 ^ 24 ≤ m := (Nat.pow_le_pow_right two_pos hlog).trans hlow
    exact ⟨149, m, Nat.mul_comm _ _, le_rfl, by omega, hm⟩

/-- An integer of at most 2^24, in units, is the magnitude of a finite pattern. -/
theorem exists_magOf_eq {m : Nat} (hm : m ≤ 2 ^ 24) : ∃ p < infBits, Float.magOf p = 2 ^ 149 * m := by
  rcases Nat.eq_zero_or_pos m with rfl | hpos
  · exact ⟨0, by decide, by decide⟩
  · obtain ⟨s, q, hmag, hs, hqge, hqle⟩ := exists_significand hpos hm
    refine ⟨s * 2 ^ 23 + q, by rw [infBits]; omega, ?_⟩
    rw [Float.magOf_pack hqle (.inr hqge), hmag]

/-- An integer up to 2^24 in magnitude converts without rounding, since its magnitude is a pattern's. -/
theorem cvtI32F32_exact {n : ℤ} (h : n.natAbs ≤ 2 ^ 24) :
    isFinite (cvtI32F32 n) = true ∧ value (cvtI32F32 n) = n := by
  obtain ⟨p, hp, hmag⟩ := exists_magOf_eq h
  have hpack : cvtI32F32 n = packSign (decide (n < 0)) p := by
    rw [cvtI32F32, ← hmag, round32, Float.roundMag_magOf hp]
  rw [hpack]
  refine ⟨Float.isFinite_packSign _ hp, ?_⟩
  rw [Rounding.value_packSign _ (hp.trans (by decide)), hmag, Nat.cast_mul, Nat.cast_pow, Nat.cast_ofNat,
    mul_left_comm, signFactor_mul_natAbs fun _ => rfl, mul_div_cancel_left₀ _ (by positivity)]

theorem natAbs_toInt_half_le (h : Half) : h.toInt.natAbs ≤ 2 ^ 24 := by
  have hlow := BitVec.le_toInt h
  have hhigh := BitVec.toInt_lt (x := h)
  omega

/-- Every quantized lane converts without rounding (42_position_decode.md R67). -/
theorem cvtI32F32_half_exact (h : Half) :
    isFinite (cvtI32F32 h.toInt) = true ∧ value (cvtI32F32 h.toInt) = h.toInt :=
  cvtI32F32_exact (natAbs_toInt_half_le h)

theorem cvtI32F32_zero : cvtI32F32 0 = 0x00000000#32 := by
  rw [cvtI32F32, Int.natAbs_zero, Nat.mul_zero, round32_zero]
  decide

/-- Settles O41. -/
theorem smallIntegersConvertExactly : Obligations.SmallIntegersConvertExactly :=
  ⟨fun _ => cvtI32F32_exact, cvtI32F32_half_exact, cvtI32F32_zero⟩

/-- Settles O49: a lane converts without rounding, so the product is rounded once (00_scope.md R7). -/
theorem scaledLaneIsRoundedProduct : Obligations.ScaledLaneIsRoundedProduct := by
  intro nan h s hs
  obtain ⟨hfin, hvalue⟩ := cvtI32F32_half_exact h
  rw [← hvalue]
  exact (fmulRoundsTheExactProduct nan _ s hfin hs).1

/-! ## A lane whose input is zero -/

/-- A sum of two zeros is −0 only of two minus zeros. -/
theorem fadd32_isZero_isZero (nan : Word) {a b : Word} (ha : isZero a = true) (hb : isZero b = true) :
    fadd32 nan a b = packSign (signBit a && signBit b) 0 := by
  have hsum : units a + units b = 0 := by rw [(units_eq_zero_iff a).2 ha, (units_eq_zero_iff b).2 hb, add_zero]
  rw [Float.fadd32_finite nan (isFinite_of_isZero ha) (isFinite_of_isZero hb), sumSign_of_eq_zero hsum, hsum,
    Int.natAbs_zero, round32_zero]

/-- A zero of sign `neg` added to any number gives that number, but for −0 with a positive zero. -/
theorem fadd32_packSign_zero (nan : Word) (neg : Bool) {c : Word} (hc : isNaN c = false) :
    fadd32 nan (packSign neg 0) c = if c = 0x80000000#32 ∧ neg = false then 0x00000000#32 else c := by
  cases hz : isZero c with
  | true =>
    rw [fadd32_isZero_isZero nan (isZero_packSign_zero neg) hz, Float.signBit_packSign neg (by decide),
      ← packSign_of_isZero hz]
    cases neg <;> cases signBit c <;> decide
  | false =>
    have hne : c ≠ 0x80000000#32 := by
      rintro rfl
      exact absurd hz (by decide)
    rw [if_neg fun h => hne h.1]
    cases hi : isInf c with
    | true => exact fadd32_isInf_right nan hi (isFinite_of_isZero (isZero_packSign_zero neg))
    | false => exact fadd32_isZero_left nan (isZero_packSign_zero neg) ((Float.isFinite_iff_not c).2 ⟨hc, hi⟩) hz

/-- With a finite scale the product of a zero input is a zero of the scale's sign (42_position_decode.md R73). -/
theorem decodeLane_zero (n m : Word) {s c : Word} (hs : isFinite s = true) (hc : isNaN c = false) :
    decodeLane n m 0 s c = if c = 0x80000000#32 ∧ signBit s = false then 0x00000000#32 else c := by
  rw [decodeLane, cvtI32F32_zero, fmul32_isZero_isFinite n (by decide) hs, show signBit 0x00000000#32 = false by decide,
    Bool.false_xor, fadd32_packSign_zero m _ hc]

/-- A zero input with a scale that is not finite multiplies to a NaN, which the sum keeps (42_position_decode.md R73). -/
theorem decodeLane_zero_of_not_isFinite {n : Word} (m : Word) {s : Word} (c : Word) (hn : isNaN n = true)
    (hs : isFinite s = false) : decodeLane n m 0 s c = m := by
  have hmul : fmul32 n 0x00000000#32 s = n := by
    rw [fmul32_comm]
    cases hnan : isNaN s with
    | true => exact fmul32_of_isNaN n _ hnan
    | false =>
      have hinf : isInf s = true := by
        by_contra hinf
        rw [(Float.isFinite_iff_not s).2 ⟨hnan, Bool.eq_false_iff.2 hinf⟩] at hs
        exact absurd hs (by decide)
      exact fmul32_isInf_isZero n hinf (by decide)
  rw [decodeLane, cvtI32F32_zero, hmul, fadd32_of_isNaN m (.inl hn)]

theorem decodeLane_of_isNaN (n m : Word) (t : ℤ) (s : Word) {c : Word} (hc : isNaN c = true) :
    decodeLane n m t s c = m :=
  fadd32_of_isNaN m (.inr hc)

/-- Settles O50: lane 3 of a vertex decodes the pad 0 (42_position_decode.md R66). -/
theorem padLaneOfEveryVertex : Obligations.PadLaneOfEveryVertex := by
  intro nan a0 a1 a2 s c k hnan
  rw [Ops.vdecode_vertex]
  refine ⟨decodeLane_zero _ _, fun hs => ?_, fun hc => ?_⟩
  · rw [decodeLane_zero_of_not_isFinite _ _ (hnan _) hs]
    exact hnan _
  · rw [decodeLane_of_isNaN _ _ _ _ hc]
    exact hnan _

/-! ## The zero vector -/

/-- A vector whose every lane is `x`. -/
theorem eq_fill {α : Type} {v : Lanes α} {x : α} (h : ∀ k, v.get k = x) : v = Lanes.fill x :=
  Lanes.ext (h 0) (h 1) (h 2) (h 3)

@[simp] theorem get_fill {α : Type} (x : α) (k : Fin 4) : (Lanes.fill x).get k = x := by
  match k with
  | 0 | 1 | 2 | 3 => rfl

/-- Zero in all three inputs and the pad. -/
theorem transpose_zero (k j : Fin 4) :
    ((transpose (sextLanes (Lanes.fill 0#16)) (sextLanes (Lanes.fill 0#16)) (sextLanes (Lanes.fill 0#16))).get k).get j = 0 := by
  rw [Ops.transpose_sextLanes, get_fill]
  match j with
  | 0 | 1 | 2 | 3 => rfl

/-- Settles O51: each of the sixteen lanes is a zero input with a `CC` lane of +0. -/
theorem zeroInputsDecodeToZero : Obligations.ZeroInputsDecodeToZero := by
  intro nan s hs
  refine eq_fill fun k => eq_fill fun j => ?_
  rw [Ops.vdecode_lane, transpose_zero, get_fill, decodeLane_zero _ _ (hs j) (by decide)]
  exact if_neg fun h => absurd h.1 (by decide)

/-! ## DEC and RDOUT -/

/-- A lane that takes two draws is a product and then a sum, each with a NaN of its own (42_position_decode.md R69). -/
theorem decodeLane_nanDraw (s : State) (i j : Nat) (t : ℤ) (x c : Word) :
    ∃ n m : Word, isNaN n = true ∧ isNaN m = true ∧
      decodeLane (nanDraw s i) (nanDraw s j) t x c = fadd32 m (fmul32 n (cvtI32F32 t) x) c :=
  ⟨_, _, Ops.isNaN_nanDraw s i, Ops.isNaN_nanDraw s j, rfl⟩

/-- Settles O35: `DEC`'s next state field by field; the NaNs of a lane are its two draws. -/
theorem decDecodesFourVertices : Obligations.DecDecodesFourVertices := by
  intro k a0 a1 a2 s hsv hcc
  obtain ⟨t, hexec, hout, hstat, hport, hframe⟩ := Ops.exec_dec k a0 a1 a2 hsv hcc
  refine ⟨t, hexec, fun v => ?_, ?_, hport, hframe⟩
  · rw [hout, Ops.vdecode_vertex, ← cvtI32F32_zero]
    exact ⟨decodeLane_nanDraw s _ _ _ _ _, decodeLane_nanDraw s _ _ _ _ _, decodeLane_nanDraw s _ _ _ _ _,
      decodeLane_nanDraw s _ _ _ _ _⟩
  · rw [hstat]
    exact Ops.getLsbD_statSet s.stat .outv

/-- Settles O36. -/
theorem decFailsUnlessBothWritten : Obligations.DecFailsUnlessBothWritten := fun k a0 a1 a2 _ =>
  Ops.exec_dec_uninit k a0 a1 a2

/-- Settles O37: the valid bit chooses between the vertex and `UNINIT`. -/
theorem rdoutReturnsVertexOrFails : Obligations.RdoutReturnsVertexOrFails := fun k d _ =>
  ⟨Decode.decode_rdout k d, Ops.exec_rdout_ok k, Ops.exec_rdout_uninit k⟩

end Sys2Proof.Proofs.PositionDecode
end

section
/-! SUPPORT. Proofs of the statements of 43_control.md: NOP (R76) and RDSTAT (R77). -/

namespace Sys2Proof.Proofs.Control

open Sys2Proof.Machine Sys2Proof.Laws

/-- 43_control.md R76: the response is all that `NOP` does. -/
theorem exec_nop (s : State) : exec .nop s = .next (respond .ok (Lanes.fill 0#32) s) := rfl

/-- 43_control.md R77: the response is all that `RDSTAT` does; it needs no valid bit. -/
theorem exec_rdstat (s : State) : exec .rdstat s = .next (respond .ok ⟨s.stat, 0#32, 0#32, 0#32⟩ s) := rfl

/-- Settles O26: a response changes the port alone. -/
theorem nopOnlyResponds : Obligations.NopOnlyResponds := fun d s => ⟨Decode.decode_nop d, exec_nop s⟩

/-- Settles O27: a response changes the port alone, so `STAT` is read and kept. -/
theorem rdstatReturnsStatus : Obligations.RdstatReturnsStatus := fun d s => ⟨Decode.decode_rdstat d, exec_rdstat s⟩

end Sys2Proof.Proofs.Control
end

section
/-! SUPPORT. Proofs of the statements of 60_exceptions.md: the two errors a command can end in and what each writes (R79 to R83), the
NaNs that are drawn (R85), and a step with nothing presented (R93). -/

namespace Sys2Proof.Proofs.Exceptions

open Sys2Proof.Machine Sys2Proof.Safety Sys2Proof.Laws Sys2Proof.Laws.State

/-! ## `UNINIT` and `OK` of an instruction -/

/-- The table of 60_exceptions.md R80, row by row: the failing instructions are `fail .uninit` and nothing else. -/
theorem exec_of_needsUnwritten {i : Instr} {s : State} (h : needsUnwritten (Registers.opcode i) s.stat) :
    exec i s = .next (fail .uninit s) := by
  cases i
  case rdsv => exact Ops.exec_rdsv_uninit (by simpa [needsUnwritten, Registers.opcode] using h)
  case rdcc => exact Ops.exec_rdcc_uninit (by simpa [needsUnwritten, Registers.opcode] using h)
  case dec k a0 a1 a2 => exact Ops.exec_dec_uninit k a0 a1 a2 (by simpa [needsUnwritten, Registers.opcode] using h)
  case rdout k => exact Ops.exec_rdout_uninit k (by simpa [needsUnwritten, Registers.opcode] using h)
  case nop | svb | wrsv | ccb | wrcc | rdstat => simp [needsUnwritten, Registers.opcode] at h

/-- An instruction that reads no unwritten register responds `OK` (60_exceptions.md R80). -/
theorem exec_ok_of_not_needsUnwritten {i : Instr} {s : State} (h : ¬ needsUnwritten (Registers.opcode i) s.stat) :
    ∃ t r, exec i s = .next t ∧ t.port = .answered ⟨.ok, r⟩ := by
  cases i
  case nop | svb | wrsv | ccb | wrcc | rdstat => exact ⟨_, _, rfl, rfl⟩
  case rdsv => exact ⟨_, _, Ops.exec_rdsv_ok (by simpa [needsUnwritten, Registers.opcode] using h), rfl⟩
  case rdcc => exact ⟨_, _, Ops.exec_rdcc_ok (by simpa [needsUnwritten, Registers.opcode] using h), rfl⟩
  case dec k a0 a1 a2 =>
    obtain ⟨hsv, hcc⟩ : s.stat.getLsbD 0 = true ∧ s.stat.getLsbD 1 = true := by
      simpa [needsUnwritten, Registers.opcode] using h
    obtain ⟨t, ht, -, -, hport, -⟩ := Ops.exec_dec k a0 a1 a2 hsv hcc
    exact ⟨t, _, ht, hport⟩
  case rdout k => exact ⟨_, _, Ops.exec_rdout_ok k (by simpa [needsUnwritten, Registers.opcode] using h), rfl⟩

/-- No instruction sets `STAT.ILL`, and one that reads no unwritten register does not set `STAT.UNINIT` (10_state.md R23, R24). -/
theorem exec_noErrorRecorded_iff {i : Instr} {s t : State} (h : exec i s = .next t)
    (hwritten : ¬ needsUnwritten (Registers.opcode i) s.stat) : NoErrorRecorded t ↔ NoErrorRecorded s := by
  have hill : ¬ Registers.SetsBit i s.stat 3 := by simp [Registers.SetsBit]
  have huninit : ¬ Registers.SetsBit i s.stat 4 := by simpa [Registers.SetsBit] using hwritten
  simp only [NoErrorRecorded, ← Bool.not_eq_true, Registers.exec_stat_bit h, hill, huninit, or_false]

/-! ## The outcome of a command -/

theorem runCommand_of_needsUnwritten {c : Command} {s : State} (hl : legal c.cmd = true)
    (h : needsUnwritten (c.cmd.toNat % 16) s.stat) : runCommand c s = .next (fail .uninit s) := by
  obtain ⟨i, hi⟩ := Scope.decode_legal hl
  rw [Registers.opcode_of_decode hi] at h
  rw [Ops.runCommand_ok hi, exec_of_needsUnwritten h]

theorem runCommand_ok_of_not_needsUnwritten {c : Command} {s : State} (hl : legal c.cmd = true)
    (h : ¬ needsUnwritten (c.cmd.toNat % 16) s.stat) :
    ∃ t r, runCommand c s = .next t ∧ t.port = .answered ⟨.ok, r⟩ ∧ (NoErrorRecorded t ↔ NoErrorRecorded s) := by
  obtain ⟨i, hi⟩ := Scope.decode_legal hl
  rw [Registers.opcode_of_decode hi] at h
  obtain ⟨t, r, ht, hport⟩ := exec_ok_of_not_needsUnwritten h
  exact ⟨t, r, (Ops.runCommand_ok hi s).trans ht, hport, exec_noErrorRecorded_iff ht h⟩

/-- The three ends of a command: `fail` with either error, or `OK` with no error recorded (60_exceptions.md R79, R80, R83). -/
theorem runCommand_cases {c : Command} {s t : State} (h : runCommand c s = .next t) :
    t = fail .ill s ∨ t = fail .uninit s ∨
      ∃ r, t.port = .answered ⟨.ok, r⟩ ∧ (NoErrorRecorded t ↔ NoErrorRecorded s) := by
  cases hl : legal c.cmd with
  | false =>
    cases (Ops.runCommand_illegal hl s).symm.trans h
    exact .inl rfl
  | true =>
    by_cases hneed : needsUnwritten (c.cmd.toNat % 16) s.stat
    · cases (runCommand_of_needsUnwritten hl hneed).symm.trans h
      exact .inr (.inl rfl)
    · obtain ⟨u, r, hu, hport, herr⟩ := runCommand_ok_of_not_needsUnwritten hl hneed
      cases hu.symm.trans h
      exact .inr (.inr ⟨r, hport, herr⟩)

/-- Settles O11: of the ends of a command the two `fail`s are left, each with the rule of `setStat` for its bit. -/
theorem failedCommandWritesOneStickyBit : Obligations.FailedCommandWritesOneStickyBit := by
  intro s t c rest rc r ⟨hphase, hinbox⟩ hstep hport hfail
  rw [Ops.step_command hphase hinbox] at hstep
  rcases runCommand_cases hstep with rfl | rfl | ⟨q, hok, -⟩
  · cases hport
    exact ⟨rfl, rfl, rfl, rfl, rfl, rfl, rfl, fun _ => Ops.getLsbD_statSet s.stat .ill, nofun⟩
  · cases hport
    exact ⟨rfl, rfl, rfl, rfl, rfl, rfl, rfl, nofun, fun _ => Ops.getLsbD_statSet s.stat .uninit⟩
  · cases hok.symm.trans hport
    exact absurd rfl hfail

/-- Settles O12: a command that the table of R80 names is `fail .uninit`, and any other legal one responds `OK`. -/
theorem uninitExactlyWhenValidBitClear : Obligations.UninitExactlyWhenValidBitClear := by
  intro s c rest ⟨hphase, hinbox⟩ hl
  rw [Ops.step_command hphase hinbox]
  have huninit (h : needsUnwritten (c.cmd.toNat % 16) s.stat) :
      runCommand c (takeEvent rest s) = .next (fail .uninit (takeEvent rest s)) :=
    runCommand_of_needsUnwritten hl h
  refine ⟨⟨fun ⟨t, r, ht, hport⟩ => ?_, fun h => ⟨_, _, huninit h, rfl⟩⟩, huninit⟩
  by_contra hwritten
  obtain ⟨u, q, hu, hok, -⟩ := runCommand_ok_of_not_needsUnwritten (s := takeEvent rest s) hl hwritten
  cases hu.symm.trans ht
  cases hok.symm.trans hport

theorem not_noErrorRecorded_fail_ill (s : State) : ¬ NoErrorRecorded (fail .ill s) := by
  simp [NoErrorRecorded, Ops.getLsbD_statSet, statPos]

theorem not_noErrorRecorded_fail_uninit (s : State) : ¬ NoErrorRecorded (fail .uninit s) := by
  simp [NoErrorRecorded, Ops.getLsbD_statSet, statPos]

/-- Settles O13: an error response leaves its sticky bit set, and `OK` leaves both sticky bits as they were. -/
theorem errorRecordedExactlyOnError : Obligations.ErrorRecordedExactlyOnError := by
  intro s t c rest ⟨hphase, hinbox⟩ hstep
  rw [Ops.step_command hphase hinbox] at hstep
  rcases runCommand_cases hstep with rfl | rfl | ⟨r, hok, herr⟩
  · exact iff_of_false (not_noErrorRecorded_fail_ill _) fun ⟨_, _, hport⟩ => nomatch hport
  · exact iff_of_false (not_noErrorRecorded_fail_uninit _) fun ⟨_, _, hport⟩ => nomatch hport
  · exact herr.trans (and_iff_left ⟨r, hok⟩).symm

/-! ## The NaNs -/

/-- A NaN is the pattern of its sign and of its fraction, which is not 0 (60_exceptions.md R85). -/
theorem exists_nanPattern {w : Word} (h : isNaN w = true) : ∃ neg f, w = nanPattern neg f := by
  rw [Float.isNaN_iff] at h
  have hfrac : w.toNat % 2 ^ 31 - infBits - 1 < 8388607 := by rw [infBits] at *; omega
  have hbits : infBits + (w.toNat % 2 ^ 31 - infBits - 1 + 1) = w.toNat % 2 ^ 31 := by omega
  refine ⟨signBit w, ⟨_, hfrac⟩, ?_⟩
  rw [nanPattern, hbits]
  exact Float.eq_packSign w

/-- Settles O48. -/
theorem nanPatternsAreAllTheNaNs : Obligations.NanPatternsAreAllTheNaNs := by
  refine ⟨fun w => ⟨exists_nanPattern, ?_⟩, Float.isNaN_drawnNaN⟩
  rintro ⟨neg, f, rfl⟩
  exact Float.isNaN_nanPattern neg f

/-! ## A step with nothing presented -/

/-- Settles O16. -/
theorem idleStepHoldsAllState : Obligations.IdleStepHoldsAllState := fun _ => Ops.step_idle

end Sys2Proof.Proofs.Exceptions
end

section
/-! SUPPORT. Proofs of the statements of 70_reset_and_hazards.md: `RESET` by itself (R94) and together with a command (R95). -/

namespace Sys2Proof.Proofs.ResetAndHazards

open Sys2Proof.Machine Sys2Proof.Laws Sys2Proof.Laws.State

/-! ## The steps that are presented `RESET` -/

section Steps

variable {s u : State} {c : Command} {rest : List HostEvent}

/-- 70_reset_and_hazards.md R94, whether or not the block was reset before. -/
theorem step_reset (h : s.inbox = .reset :: rest) : step s = .next (applyReset (takeEvent rest s)) := Ops.step_event h

/-- The first order of 70_reset_and_hazards.md R95: the command completes and its effects are then reset. -/
theorem step_commandWithReset_of_commandFirst (h : s.inbox = .commandWithReset c :: rest)
    (horder : Config.resetFirst s.draws = false) (hrun : runCommand c (advanceDraws 1 (takeEvent rest s)) = .next u) :
    step s = .next (loseResponse (applyReset u)) := by
  simp [Ops.step_event h, handleEvent, presentWithReset, horder, hrun, mapNext]

/-- The second order of 70_reset_and_hazards.md R95: the command executes on the reset state. -/
theorem step_commandWithReset_of_resetFirst (h : s.inbox = .commandWithReset c :: rest)
    (horder : Config.resetFirst s.draws = true)
    (hrun : runCommand c (applyReset (advanceDraws 1 (takeEvent rest s))) = .next u) :
    step s = .next (loseResponse u) := by
  simp [Ops.step_event h, handleEvent, presentWithReset, horder, hrun, mapNext]

end Steps

/-! ## The statements -/

/-- Settles O18: in either order the command ends in a next state (`Ran`), which keeps the inbox and, run last, the phase. -/
theorem resetWithCommandTakesOneOrder : Obligations.ResetWithCommandTakesOneOrder := by
  intro s c rest hinbox
  cases horder : Config.resetFirst s.draws with
  | false =>
    obtain ⟨u, hrun, hran⟩ := Ops.runCommand_ran c (advanceDraws 1 (takeEvent rest s))
    exact ⟨_, step_commandWithReset_of_commandFirst hinbox horder hrun, loseResponse_port _, applyReset_phase u,
      hran.inbox, .inl ⟨rfl, applyReset_stat u⟩⟩
  | true =>
    obtain ⟨u, hrun, hran⟩ := Ops.runCommand_ran c (applyReset (advanceDraws 1 (takeEvent rest s)))
    exact ⟨_, step_commandWithReset_of_resetFirst hinbox horder hrun, loseResponse_port _, hran.phase, hran.inbox,
      .inr ⟨rfl, _, u, applyReset_stat _, applyReset_phase _, applyReset_inbox _, applyReset_port _, hrun, rfl⟩⟩

/-- Settles O17: the next state is the reset state, with the inbox that is left after the event. -/
theorem resetClearsStatus : Obligations.ResetClearsStatus := fun _ _ h =>
  ⟨_, step_reset h, applyReset_stat _, applyReset_phase _, applyReset_port _, applyReset_inbox _⟩

end Sys2Proof.Proofs.ResetAndHazards
end

section
/-! SUPPORT. Proofs of the statements on what the host sends and presents: a command as bytes in either order (20_memory.md R35), a
command before and after the first `RESET` (00_scope.md R10, 60_exceptions.md R93), and power (60_exceptions.md R93). -/

namespace Sys2Proof.Proofs.HostInput

open Sys2Proof.Machine Sys2Proof.Safety Sys2Proof.Laws Sys2Proof.Laws.State

/-! ## The byte stream -/

/-- A command serialised and taken back, word by word (20_memory.md R35). -/
theorem takeCommand_commandToBytes (o : ByteOrder) (c : Command) (rest : List Byte) :
    takeCommand o (commandToBytes o c ++ rest) = some (c, rest) := by
  simp only [takeCommand, commandToBytes, List.append_assoc, Decode.takeWord_wordToBytes]

theorem decodeBytes_commandToBytes {c : Command} {i : Instr} (h : decode c = .ok i) (o : ByteOrder) (rest : List Byte) :
    decodeBytes o (commandToBytes o c ++ rest) = .ok (i, rest) := by
  simp only [decodeBytes, takeCommand_commandToBytes, h]

/-- Settles O8: the bytes give the command back, which decodes to the instruction. -/
theorem byteStreamDecodesInEitherOrder : Obligations.ByteStreamDecodesInEitherOrder := fun o i rest =>
  decodeBytes_commandToBytes (Encoding.decode_encode i) o rest

/-! ## A presented command -/

/-- Settles O9: the step is `runCommand`, which is `exec` of what the command decodes to. -/
theorem stepRunsTheDecodedCommand : Obligations.StepRunsTheDecodedCommand := fun s _ rest _ ⟨hphase, hinbox⟩ hdecode =>
  (Ops.step_command hphase hinbox).trans (Ops.runCommand_ok hdecode (takeEvent rest s))

theorem presentCommand_of_unreset {s : State} (h : s.phase = .unreset) (c : Command) :
    presentCommand c s = .refused .beforeReset := by
  rw [presentCommand, h]

/-- Settles O15. -/
theorem commandBeforeResetIsRefused : Obligations.CommandBeforeResetIsRefused := fun s c rest hphase hinbox =>
  (Ops.step_event hinbox).trans (presentCommand_of_unreset (s := takeEvent rest s) hphase c)

/-- In either order of 70_reset_and_hazards.md R95 the step answers a next state. -/
theorem exists_step_commandWithReset {s : State} {c : Command} {rest : List HostEvent}
    (h : s.inbox = .commandWithReset c :: rest) : ∃ t, step s = .next t := by
  obtain ⟨t, ht, -⟩ := ResetAndHazards.resetWithCommandTakesOneOrder s c rest h
  exact ⟨t, ht⟩

/-- Settles O14, by what is presented: only a command can be refused, by a block that has not been reset. -/
theorem onlyUnresetBlockRefuses : Obligations.OnlyUnresetBlockRefuses := by
  intro s
  cases hinbox : s.inbox with
  | nil => exact .inl ⟨_, Ops.step_idle hinbox⟩
  | cons e rest =>
    cases e with
    | powerOn => exact .inl ⟨_, Ops.step_event hinbox⟩
    | reset => exact .inl ⟨_, ResetAndHazards.step_reset hinbox⟩
    | commandWithReset c => exact .inl (exists_step_commandWithReset hinbox)
    | command c =>
      cases hphase : s.phase with
      | unreset => exact .inr ⟨commandBeforeResetIsRefused s c rest hphase hinbox, rfl, c, rest, rfl⟩
      | operational =>
        obtain ⟨t, hrun, -⟩ := Ops.runCommand_ran c (takeEvent rest s)
        exact .inl ⟨t, (Ops.step_command hphase hinbox).trans hrun⟩

/-! ## Power -/

theorem step_powerOn {s : State} {rest : List HostEvent} (h : s.inbox = .powerOn :: rest) :
    step s = .next (powerUp (takeEvent rest s)) := Ops.step_event h

/-! Which draw each register holds after power: `SV` the first four, `CC` the next four, `OUT` sixteen, `STAT` the last. -/

theorem powerUp_sv_get (s : State) (j : Fin 4) : (powerUp s).sv.get j = Config.powerUpWord (s.draws + j.val) :=
  Ops.get_powerUpLanes s.draws j

theorem powerUp_cc_get (s : State) (j : Fin 4) : (powerUp s).cc.get j = Config.powerUpWord (s.draws + 4 + j.val) :=
  Ops.get_powerUpLanes (s.draws + 4) j

theorem powerUp_out_get (s : State) (k j : Fin 4) :
    ((powerUp s).out.get k).get j = Config.powerUpWord (s.draws + 8 + 4 * k.val + j.val) := by
  rw [powerUp, Ops.get_ofFn, Ops.get_powerUpLanes]

theorem powerUp_stat (s : State) : (powerUp s).stat = Config.powerUpWord (s.draws + 24) &&& 0x0000001F#32 := rfl

/-- The word is one of the 25 free values that power draws (60_exceptions.md R93; log entry 8). -/
def IsPowerUpDraw (s : State) (w : Word) : Prop :=
  ∃ n, s.draws ≤ n ∧ n < (powerUp s).draws ∧ w = Config.powerUpWord n

theorem isPowerUpDraw_sv (s : State) (j : Fin 4) : IsPowerUpDraw s ((powerUp s).sv.get j) :=
  ⟨_, by omega, by rw [powerUp_draws]; omega, powerUp_sv_get s j⟩

theorem isPowerUpDraw_cc (s : State) (j : Fin 4) : IsPowerUpDraw s ((powerUp s).cc.get j) :=
  ⟨_, by omega, by rw [powerUp_draws]; omega, powerUp_cc_get s j⟩

theorem isPowerUpDraw_out (s : State) (k j : Fin 4) : IsPowerUpDraw s (((powerUp s).out.get k).get j) :=
  ⟨_, by omega, by rw [powerUp_draws]; omega, powerUp_out_get s k j⟩

/-- Settles O58: the next state is `powerUp`, whose registers hold the 25 draws it takes. -/
theorem powerLeavesEveryRegisterFree : Obligations.PowerLeavesEveryRegisterFree := by
  intro s rest hinbox
  exact ⟨_, step_powerOn hinbox, powerUp_phase _, powerUp_inbox _, powerUp_port _, isPowerUpDraw_sv _, isPowerUpDraw_cc _,
    isPowerUpDraw_out _, s.draws + 24, by omega, by rw [powerUp_draws, takeEvent_draws]; omega, powerUp_stat _⟩

end Sys2Proof.Proofs.HostInput
end
